-- ==== Sys2Proof/Word.lean ====
section
/-! DEFINITION. The word types of the core: what the spec treats as bits, each at the one width the spec gives it. -/

namespace Sys2Proof

/-- A command word: "Every word is 8 bits" (30_encoding.md R45). -/
abbrev CommandWord := BitVec 8

/-- A mux address, `ADDR_W` = 3 bits (00_scope.md R5). -/
abbrev MuxAddr := BitVec 3

/-- A semitone operand field, 4 bits, of which 0 to 11 are legal (30_encoding.md R46, 42_note_lookup_table.md R95). -/
abbrev NoteField := BitVec 4

/-- A step size, the current step size and the phase accumulator: `STEP_W` = 32 bits (00_scope.md R5). -/
abbrev StepSize := BitVec 32

/-- The derived sample, `SAMPLE_W` = 8 bits read as two's complement (00_scope.md R5). -/
abbrev SampleWord := BitVec 8

/-- The audio output value, `OUT_BITS` = 8 bits, unsigned (00_scope.md R5). -/
abbrev OutWord := BitVec 8

end Sys2Proof
end

