-- ==== Sys2Proof/Config.lean ====
section
/-! DEFINITION. What is fixed for the machine (00_scope.md R5), the parameters the spec leaves open, and the source of the values the spec leaves free. -/

namespace Sys2Proof

/-- `ANY(w)` of 00_scope.md R7: the `k`-th draw, read at width `w`.
It has no body that anything may unfold, so no claim can rest on a value of it; the step reads `State.draws` and
advances it, so that each evaluation of ANY is a draw of its own (log 1). -/
opaque Config.any (w k : Nat) : BitVec w

/-- `ANY(1)`, as a level. -/
def Config.anyBit (k : Nat) : Bool := (Config.any 1 k).getLsbD 0

/-- `STEP[0..11]`, the note ROM: an OPEN parameter, a function on exactly 0 to 11
(42_note_lookup_table.md R98, R101, R102; D10; log 6). -/
opaque Config.stepSize : Fin 12 → StepSize

/-- `LABEL[0..11]`: an OPEN parameter (42_note_lookup_table.md R100; D11; log 6). No rule of the core reads it. -/
opaque Config.label : Fin 12 → String

/-- `MUX_DEN`: the mux address of display power enable (00_scope.md R5). -/
def Config.muxDen : MuxAddr := 3#3

/-- `MUX_DRST`: the mux address of display logic reset (00_scope.md R5). -/
def Config.muxDrst : MuxAddr := 4#3

/-- `DRST_ASSERT`: the level that asserts display logic reset (D12; log 18). -/
def Config.drstAssert : Bool := false

/-- `DEN_ON`: the level that enables display power (D13; log 18). -/
def Config.denOn : Bool := true

/-- `CSS_RESET` (D6; log 5). -/
def Config.cssReset : StepSize := 0#32

/-- `OUT_BITS`, the resolution of the audio output device (D8; log 18). -/
def Config.outBits : Nat := 8

/-- `T_OUT` in microseconds, the lower bound of a strobe's hold (00_scope.md R5). -/
def Config.tOut : Nat := 2

/-- `T_ROW` in microseconds, the lower bound of a row's settling (00_scope.md R5). -/
def Config.tRow : Nat := 3

/-- `T_FG` in microseconds: 100 ms (00_scope.md R5). -/
def Config.tFg : Nat := 100000

/-- `SAMPLE_RATE` in hertz (00_scope.md R5). No rule of the untimed machine reads it; the step formula of
42_note_lookup_table.md R97 does. -/
def Config.sampleRate : Nat := 22000

/-- The reference contents of the note table, for tests only: general knowledge, not the repository's numbers
(42_note_lookup_table.md R99). Nothing says that `Config.stepSize` equals it. -/
def Config.referenceStep : Fin 12 → StepSize := fun i =>
  match i with
  | 0 => 51076057#32
  | 1 => 54113197#32
  | 2 => 57330935#32
  | 3 => 60740010#32
  | 4 => 64351799#32
  | 5 => 68178356#32
  | 6 => 72232452#32
  | 7 => 76527617#32
  | 8 => 81078186#32
  | 9 => 85899346#32
  | 10 => 91007187#32
  | 11 => 96418756#32

end Sys2Proof
end

