-- ==== Sys2Proof/Syntax.lean ====
section
/-! DEFINITION. The command set: one constructor per row of the opcode map (30_encoding.md R48), and what each row says of its kind and agent. -/

namespace Sys2Proof

/-- A command. Operands are the fields of the word as they stand (30_encoding.md R47), so that an operand the spec
reserves (R50) can be written down and refused; levels are `false` = low and `true` = high (00_scope.md R6). -/
inductive Instr where
  /-- de-assert enable, R60 -/
  | enl
  /-- assert enable, R61 -/
  | enh
  /-- drive the data line, R63 -/
  | dat (v : Bool)
  /-- wait at least 2 microseconds, R64 -/
  | dly2
  /-- wait at least 3 microseconds, R65 -/
  | dly3
  /-- wait for the foreground interval, R139 -/
  | wait100
  /-- drive the address lines, R62 -/
  | adr (a : MuxAddr)
  /-- sample the four columns into row `r`, R77 -/
  | smp (r : BitVec 3)
  /-- recreate the matrix register, R76 -/
  | kmnew
  /-- begin a resolution, R79 -/
  | rsvb
  /-- end a resolution, R81 -/
  | rsve
  /-- toggle the heartbeat LED, R138 -/
  | ledt
  /-- arm the sample clock, R120 -/
  | arm
  /-- one pass of the resolution loop, R80 -/
  | rsvi (i : NoteField)
  /-- `selectRow`, R67 -/
  | selrow (a : MuxAddr)
  /-- select, settle and sample one row, R78 -/
  | scanrow (r : BitVec 3)
  /-- `setAddressedOutput`, R66 -/
  | setout (a : MuxAddr) (v : Bool)
  /-- the whole resolution, R82 -/
  | resolve
  /-- one scan cycle, R83 -/
  | scan
  /-- the startup sequence, R135 -/
  | startup
  /-- one foreground iteration, R137 -/
  | fgiter
  /-- one firing of the sample clock, R121 -/
  | tick
  /-- the reset event, R175 -/
  | reset
  /-- the environment presses key `i`, R144 -/
  | keydn (i : NoteField)
  /-- the environment releases key `i`, R144 -/
  | keyup (i : NoteField)
  deriving DecidableEq, Repr

/-- The kinds of the opcode map: atomic step of FG, composite operation of FG, event word (30_encoding.md R48). -/
inductive Kind where
  | atomic | composite | event
  deriving DecidableEq, Repr

/-- Who takes the step a command names (00_scope.md R4); reset is an event, not an agent. -/
inductive Agent where
  | fg | sc | env | resetEvent
  deriving DecidableEq, Repr

/-- The column "kind" of 30_encoding.md R48. -/
def Instr.kind : Instr → Kind
  | .enl | .enh | .dat _ | .dly2 | .dly3 | .wait100 | .adr _ | .smp _ | .kmnew | .rsvb | .rsve | .ledt | .arm
  | .rsvi _ => .atomic
  | .selrow _ | .scanrow _ | .setout _ _ | .resolve | .scan | .startup | .fgiter => .composite
  | .tick | .reset | .keydn _ | .keyup _ => .event

/-- The agent whose step the command is (00_scope.md R4, 30_encoding.md R45). -/
def Instr.agent : Instr → Agent
  | .enl | .enh | .dat _ | .dly2 | .dly3 | .wait100 | .adr _ | .smp _ | .kmnew | .rsvb | .rsve | .ledt | .arm
  | .rsvi _ | .selrow _ | .scanrow _ | .setout _ _ | .resolve | .scan | .startup | .fgiter => .fg
  | .tick => .sc
  | .reset => .resetEvent
  | .keydn _ | .keyup _ => .env

/-- The mnemonic of 30_encoding.md R48. -/
def Instr.mnemonic : Instr → String
  | .enl => "ENL" | .enh => "ENH" | .dat _ => "DAT" | .dly2 => "DLY2" | .dly3 => "DLY3" | .wait100 => "WAIT100"
  | .adr _ => "ADR" | .smp _ => "SMP" | .kmnew => "KMNEW" | .rsvb => "RSVB" | .rsve => "RSVE" | .ledt => "LEDT"
  | .arm => "ARM" | .rsvi _ => "RSVI" | .selrow _ => "SELROW" | .scanrow _ => "SCANROW" | .setout _ _ => "SETOUT"
  | .resolve => "RESOLVE" | .scan => "SCAN" | .startup => "STARTUP" | .fgiter => "FGITER" | .tick => "TICK"
  | .reset => "RESET" | .keydn _ => "KEYDN" | .keyup _ => "KEYUP"

end Sys2Proof
end

