-- ==== Sys2Proof/WellFormed.lean ====
section
/-! DEFINITION. Which commands the spec gives a meaning: the reserved operands of 30_encoding.md R50 are ill-formed. -/

namespace Sys2Proof

/-- A row operand the scanner has: "each row index 0, 1, 2" (30_encoding.md R50). -/
def rowLegal (r : BitVec 3) : Bool := decide (r.toNat < 3)

/-- A semitone operand that names a note: "semitone indices 0 through 11" (30_encoding.md R50). -/
def noteLegal (i : NoteField) : Bool := decide (i.toNat < 12)

/-- The operands are legal. Addresses 0 to 7 all are, in `ADR`, `SELROW` and `SETOUT` (30_encoding.md R50). -/
def Instr.wf : Instr → Bool
  | .smp r => rowLegal r
  | .scanrow r => rowLegal r
  | .rsvi i => noteLegal i
  | .keydn i => noteLegal i
  | .keyup i => noteLegal i
  | .enl | .enh | .dat _ | .dly2 | .dly3 | .wait100 | .adr _ | .kmnew | .rsvb | .rsve | .ledt | .arm | .selrow _
  | .setout _ _ | .resolve | .scan | .startup | .fgiter | .tick | .reset => true

end Sys2Proof
end

