-- ==== Sys2Proof/Decode.lean ====
section
/-! DEFINITION. The decoder, total on all 256 words (30_encoding.md R55), the encoder beside it, and the opcode map both follow (R48). -/

namespace Sys2Proof

/-- Why a word is refused (30_encoding.md R49, R50). -/
inductive DecodeError where
  /-- the word spells no operation, R49 -/
  | reservedWord
  /-- the word's operand names no row or no note, R50 -/
  | reservedOperand
  deriving DecidableEq, Repr

/-- The field `word[lo+n-1:lo]` (30_encoding.md R47). -/
def wordField (n lo : Nat) (w : CommandWord) : BitVec n := w.extractLsb' lo n

/-- One row of the opcode map: the fixed bits and how the fields become operands. -/
structure OpcodeRow where
  mask : CommandWord
  pattern : CommandWord
  build : CommandWord → Instr

/-- The word has the row's fixed bits. -/
def OpcodeRow.fits (r : OpcodeRow) (w : CommandWord) : Bool := w &&& r.mask == r.pattern

/-- A row of format Z: all eight bits are opcode (30_encoding.md R46). -/
def rowZ (p : CommandWord) (i : Instr) : OpcodeRow := ⟨0xFF#8, p, fun _ => i⟩

/-- A row of format B: `v` is bit 0. -/
def rowB (p : CommandWord) (f : Bool → Instr) : OpcodeRow := ⟨0xFE#8, p, fun w => f (w.getLsbD 0)⟩

/-- A row of format A: `aaa` is bits 2 to 0. -/
def rowA (p : CommandWord) (f : BitVec 3 → Instr) : OpcodeRow := ⟨0xF8#8, p, fun w => f (wordField 3 0 w)⟩

/-- A row of format V: `v` is bit 3 and `aaa` is bits 2 to 0. -/
def rowV (p : CommandWord) (f : BitVec 3 → Bool → Instr) : OpcodeRow :=
  ⟨0xF0#8, p, fun w => f (wordField 3 0 w) (w.getLsbD 3)⟩

/-- A row of format N: `iiii` is bits 3 to 0. -/
def rowN (p : CommandWord) (f : BitVec 4 → Instr) : OpcodeRow := ⟨0xF0#8, p, fun w => f (wordField 4 0 w)⟩

/-- The opcode map, in the order of 30_encoding.md R48. -/
def opcodeMap : List OpcodeRow :=
  [ rowZ 0b00000000#8 .enl
  , rowZ 0b00000001#8 .enh
  , rowB 0b00000010#8 .dat
  , rowZ 0b00000100#8 .dly2
  , rowZ 0b00000101#8 .dly3
  , rowZ 0b00000110#8 .wait100
  , rowA 0b00001000#8 .adr
  , rowA 0b00010000#8 .smp
  , rowZ 0b00011000#8 .kmnew
  , rowZ 0b00011001#8 .rsvb
  , rowZ 0b00011010#8 .rsve
  , rowZ 0b00011011#8 .ledt
  , rowZ 0b00011100#8 .arm
  , rowN 0b00100000#8 .rsvi
  , rowA 0b01000000#8 .selrow
  , rowA 0b01001000#8 .scanrow
  , rowV 0b01010000#8 .setout
  , rowZ 0b01100000#8 .resolve
  , rowZ 0b01100001#8 .scan
  , rowZ 0b01100010#8 .startup
  , rowZ 0b01100011#8 .fgiter
  , rowZ 0b10000000#8 .tick
  , rowZ 0b10000001#8 .reset
  , rowN 0b10010000#8 .keydn
  , rowN 0b10100000#8 .keyup ]

/-- The command a word spells (30_encoding.md R55): the first row that fits, its operand checked (R50); no row, no
operation (R49). -/
def decode (w : CommandWord) : Except DecodeError Instr :=
  match opcodeMap.find? (fun r => r.fits w) with
  | none => .error .reservedWord
  | some r => if (r.build w).wf then .ok (r.build w) else .error .reservedOperand

/-- The word of a command, from the patterns of 30_encoding.md R46 to R48. -/
def encode : Instr → CommandWord
  | .enl => 0b00000000#8
  | .enh => 0b00000001#8
  | .dat v => 0b0000001#7 ++ BitVec.ofBool v
  | .dly2 => 0b00000100#8
  | .dly3 => 0b00000101#8
  | .wait100 => 0b00000110#8
  | .adr a => 0b00001#5 ++ a
  | .smp r => 0b00010#5 ++ r
  | .kmnew => 0b00011000#8
  | .rsvb => 0b00011001#8
  | .rsve => 0b00011010#8
  | .ledt => 0b00011011#8
  | .arm => 0b00011100#8
  | .rsvi i => 0b0010#4 ++ i
  | .selrow a => 0b01000#5 ++ a
  | .scanrow r => 0b01001#5 ++ r
  | .setout a v => 0b0101#4 ++ BitVec.ofBool v ++ a
  | .resolve => 0b01100000#8
  | .scan => 0b01100001#8
  | .startup => 0b01100010#8
  | .fgiter => 0b01100011#8
  | .tick => 0b10000000#8
  | .reset => 0b10000001#8
  | .keydn i => 0b1001#4 ++ i
  | .keyup i => 0b1010#4 ++ i

/-- A foreground command: bit 7 is 0 (30_encoding.md R45). The others are event words. -/
def isForeground (w : CommandWord) : Bool := !w.getLsbD 7

/-- The one-byte word of a table row given as a number: its low `nbits` bits, the rest 0. Every row of the table has
8 bits, which is the longest command (30_encoding.md R45). -/
def tableWord (nbits w : Nat) : CommandWord := BitVec.ofNat 8 (w % 2 ^ nbits)

/-- What the decoder reads from a table row's word. -/
def decodeTableWord (nbits w : Nat) : Option Instr := (decode (tableWord nbits w)).toOption

end Sys2Proof
end

