-- ==== Sys2Proof/Machine/State.lean ====
section
/-! DEFINITION. The state of the core as plain data (10_state.md), the reasons a step stops, and the state after reset (70_reset_and_hazards.md R176). -/

namespace Sys2Proof.Machine

/-- One entry of the schedule: which agent takes the next step (00_scope.md R4). The schedule is an input of the
spec's step relation (10_state.md R28); here it is data of the state (log 7). -/
inductive Turn where
  /-- FG takes the next atomic step of its program -/
  | fg
  /-- the sample clock's period elapses -/
  | sc
  /-- the environment presses a key -/
  | keydn (i : Fin 12)
  /-- the environment releases a key -/
  | keyup (i : Fin 12)
  /-- power-on reset -/
  | reset
  deriving DecidableEq, Repr

/-- The state. 10_state.md R26 lists the elements; `prog`, `loop` and `rest` are the program that `FGPC` points into
(R25, 30_encoding.md R45; log 9); `draws` and `sched` are the model's own (log 1, log 7). -/
structure State where
  /-- `ADDR`, the three address lines, R10 -/
  addr : MuxAddr
  /-- `EN`, R11 -/
  en : Bool
  /-- `DATA`, R12 -/
  data : Bool
  /-- `SETTLE`, the ghost lower bound in microseconds, R13 -/
  settle : Fin 4
  /-- `OUTL[3..7]`: bit k is line 3 + k, R14 -/
  outl : BitVec 5
  /-- `KM[0..31]`, R16; a clear bit is a pressed cell -/
  km : BitVec 32
  /-- `KP`, R17 -/
  kp : Bool
  /-- `CSS`, R18 -/
  css : StepSize
  /-- `NOTE`, R19 -/
  note : Option (Fin 12)
  /-- `ACC`, R20 -/
  acc : StepSize
  /-- `AUDIO`, R21 -/
  audio : OutWord
  /-- `ARMED`, R22 -/
  armed : Bool
  /-- `LED`, R23 -/
  led : Bool
  /-- `KEY[0..11]`, R24; a set bit is a held key -/
  key : BitVec 12
  /-- `FGPC`, R25 -/
  fgpc : Nat
  /-- the straight part of the program FG executes -/
  prog : List CommandWord
  /-- the part FG repeats for ever after it; empty for a finite stream -/
  loop : List CommandWord
  /-- the words of the program still to be executed -/
  rest : List CommandWord
  /-- how many ANY draws have been made, R7 -/
  draws : Nat
  /-- which agents take the next steps; none listed: FG -/
  sched : List Turn
  deriving DecidableEq, Repr

/-- The hardware raises no exception and has no fault (60_exceptions.md R150), so there is no reason to name: no
instruction raises one. Safe. -/
inductive Fault
  deriving DecidableEq, Repr

/-- Why a step has no next state. -/
inductive Refusal where
  /-- Raised by an arm of exec whose instruction has no meaning yet; no arm does. Safe. -/
  | notModelled (mnemonic : String)
  /-- Raised by fetching a word that spells no operation (30_encoding.md R49). Safe: toward unprovable. -/
  | reservedWord
  /-- Raised by fetching, or by executing, SMP, SCANROW, RSVI, KEYDN or KEYUP with an operand that names no row or no
  note (30_encoding.md R50). Safe: toward unprovable. -/
  | reservedOperand
  /-- Raised by a TICK that a listing places while the clock is not armed: "describes no run of the hardware"
  (44_sample_rate_timer.md R121, 95_test_vectors.md 2.5; log 10). Safe. -/
  | tickNotArmed
  /-- Raised by FG's turn when a finite command stream has been executed to its last word: the run has ended
  (45_foreground_sequencer.md R136; log 11). Safe. -/
  | streamEnded
  deriving DecidableEq, Repr

/-- The straight part of the boot program: `STARTUP; ARM` (45_foreground_sequencer.md R136). -/
def bootStraight : List CommandWord := [encode .startup, encode .arm]

/-- The body the boot program repeats for ever: `FGITER` (45_foreground_sequencer.md R136). -/
def bootLoop : List CommandWord := [encode .fgiter]

/-- The state reset leaves (70_reset_and_hazards.md R176), the unspecified elements taken from the draws `k`, `k + 1`,
… `k + 7`. `KEY` is not reset; the program is the one FG executes. -/
def State.afterReset (k : Nat) (key : BitVec 12) (prog loop : List CommandWord) (sched : List Turn) : State where
  addr := Config.any 3 k
  en := Config.anyBit (k + 1)
  data := Config.anyBit (k + 2)
  settle := 0
  outl := Config.any 5 (k + 3)
  km := Config.any 32 (k + 4)
  kp := Config.anyBit (k + 5)
  css := Config.cssReset
  note := none
  acc := 0#32
  audio := Config.any 8 (k + 6)
  armed := false
  led := Config.anyBit (k + 7)
  key := key
  fgpc := 0
  prog := prog
  loop := loop
  rest := prog
  draws := k + 8
  sched := sched

/-- The machine right after reset, about to execute the boot program, with nothing scheduled. The keys are where the
environment has them: draw 0 (log 4). -/
def State.reset : State := State.afterReset 1 (Config.any 12 0) bootStraight bootLoop []

end Sys2Proof.Machine
end

