-- ==== Sys2Proof/Machine/Operands.lean ====
section
/-! DEFINITION. Operand forms and index arithmetic: rows, notes, cells, the mux address map, and the bit update they share. -/

namespace Sys2Proof.Machine

/-- The value with bit `i` set to `b` and every other bit as it was; nothing where there is no bit `i`. -/
def writeBit {n : Nat} (v : BitVec n) (i : Nat) (b : Bool) : BitVec n :=
  if b then v ||| BitVec.twoPow n i else v &&& ~~~BitVec.twoPow n i

/-- The row a row operand names; none for 3 to 7 (30_encoding.md R50). -/
def rowOf (r : BitVec 3) : Option (Fin 3) := if h : r.toNat < 3 then some ⟨r.toNat, h⟩ else none

/-- The semitone an operand of format N names; none for 12 to 15 (30_encoding.md R50). -/
def noteOf (i : NoteField) : Option (Fin 12) := if h : i.toNat < 12 then some ⟨i.toNat, h⟩ else none

/-- Cell `4*row + col`: where row `row`, column `col` is kept, and which semitone it plays
(41_key_matrix_scanner.md R88, 43_phase_accumulator_oscillator.md R115). -/
def cellIndex (row : Fin 3) (col : Fin 4) : Fin 12 := ⟨4 * row.val + col.val, by omega⟩

/-- What a mux address names (20_memory.md R31): a matrix row, or a peripheral line, line 3 + k. -/
inductive MuxTarget where
  | row (r : Fin 3)
  | line (k : Fin 5)
  deriving DecidableEq, Repr

/-- The map of the mux address space (20_memory.md R31): 0 to 2 are rows, 3 to 7 are lines. -/
def muxTarget (a : MuxAddr) : MuxTarget :=
  if h : a.toNat < 3 then .row ⟨a.toNat, h⟩ else .line ⟨a.toNat - 3, by omega⟩

/-- The level of the line row-address `k` (40_mux_controller.md R70): bit `k` of the address. -/
def addressLine (s : State) (k : Fin 3) : Bool := s.addr.getLsbD k.val

/-- `OUTL[3 + k]` (10_state.md R14). -/
def State.line (s : State) (k : Fin 5) : Bool := s.outl.getLsbD k.val

/-- `KM[i]` is pressed: the cell is low (10_state.md R16). -/
def State.pressed (s : State) (i : Fin 12) : Bool := !s.km.getLsbD i.val

/-- `KEY[i] = 1`: the key is held (10_state.md R24). -/
def State.held (s : State) (i : Fin 12) : Bool := s.key.getLsbD i.val

/-- `ROWSEL` (10_state.md R15): the row the bus selects, if any. -/
def State.rowsel (s : State) : Option (Fin 3) :=
  if s.en then (match muxTarget s.addr with | .row r => some r | .line _ => none) else none

/-- The operand of an event on key `i`. -/
def noteField (i : Fin 12) : NoteField := BitVec.ofNat 4 i.val

end Sys2Proof.Machine
end

