-- ==== Sys2Proof/Machine/Expand.lean ====
section
/-! DEFINITION. What a composite word stands for: its atomic steps in order (30_encoding.md R51, R52). -/

namespace Sys2Proof.Machine

/-- `ENL; ADR a; DAT v; ENH; DLY2; ENL` (40_mux_controller.md R66). -/
def setoutSteps (a : MuxAddr) (v : Bool) : List Instr := [.enl, .adr a, .dat v, .enh, .dly2, .enl]

/-- `ADR a; ENH` (40_mux_controller.md R67). -/
def selrowSteps (a : MuxAddr) : List Instr := [.adr a, .enh]

/-- `SELROW r; DLY3; SMP r` (41_key_matrix_scanner.md R78). -/
def scanrowSteps (r : BitVec 3) : List Instr := selrowSteps r ++ [.dly3, .smp r]

/-- `RSVI 0; …; RSVI 11`, in ascending order (41_key_matrix_scanner.md R82). -/
def passSteps : List Instr :=
  [.rsvi 0#4, .rsvi 1#4, .rsvi 2#4, .rsvi 3#4, .rsvi 4#4, .rsvi 5#4, .rsvi 6#4, .rsvi 7#4, .rsvi 8#4, .rsvi 9#4,
   .rsvi 10#4, .rsvi 11#4]

/-- `RSVB; RSVI 0; …; RSVI 11; RSVE` (41_key_matrix_scanner.md R82). -/
def resolveSteps : List Instr := .rsvb :: passSteps ++ [.rsve]

/-- `KMNEW; SCANROW 0; SCANROW 1; SCANROW 2; RESOLVE` (41_key_matrix_scanner.md R83). -/
def scanSteps : List Instr :=
  .kmnew :: (scanrowSteps 0#3 ++ scanrowSteps 1#3 ++ scanrowSteps 2#3 ++ resolveSteps)

/-- `SETOUT MUX_DRST, DRST_ASSERT; SETOUT MUX_DRST, 1 - DRST_ASSERT; SETOUT MUX_DEN, DEN_ON`
(45_foreground_sequencer.md R135). -/
def startupSteps : List Instr :=
  setoutSteps Config.muxDrst Config.drstAssert ++ setoutSteps Config.muxDrst (!Config.drstAssert)
    ++ setoutSteps Config.muxDen Config.denOn

/-- `WAIT100; SCAN; LEDT` (45_foreground_sequencer.md R137). -/
def fgiterSteps : List Instr := .wait100 :: (scanSteps ++ [.ledt])

/-- The atomic steps of FG a command is made of: itself if it is atomic, its complete expansion if it is composite;
an event word is no step of FG (30_encoding.md R45, R51). -/
def atomics : Instr → List Instr
  | .setout a v => setoutSteps a v
  | .selrow a => selrowSteps a
  | .scanrow r => scanrowSteps r
  | .resolve => resolveSteps
  | .scan => scanSteps
  | .startup => startupSteps
  | .fgiter => fgiterSteps
  | .tick | .reset | .keydn _ | .keyup _ => []
  | .enl => [.enl]
  | .enh => [.enh]
  | .dat v => [.dat v]
  | .dly2 => [.dly2]
  | .dly3 => [.dly3]
  | .wait100 => [.wait100]
  | .adr a => [.adr a]
  | .smp r => [.smp r]
  | .kmnew => [.kmnew]
  | .rsvb => [.rsvb]
  | .rsve => [.rsve]
  | .ledt => [.ledt]
  | .arm => [.arm]
  | .rsvi i => [.rsvi i]

/-- The atomic steps a word of a stream stands for; none for a word the decoder refuses. -/
def wordSteps (w : CommandWord) : List Instr :=
  match decode w with
  | .ok i => atomics i
  | .error _ => []

/-- The list of atomic steps that `FGPC` is an index into (10_state.md R25). -/
def streamSteps (ws : List CommandWord) : List Instr := ws.flatMap wordSteps

end Sys2Proof.Machine
end

