-- ==== Sys2Proof/Machine/Flags.lean ====
section
/-! DEFINITION. The one condition flag, `KP` (10_state.md R17): what each step of a resolution makes of it. -/

namespace Sys2Proof.Machine

/-- `KP` after `RSVB`: clear (41_key_matrix_scanner.md R79). -/
def kpBegin : Bool := false

/-- `KP` after a pass that finds its cell pressed or not: set by a pressed cell, never cleared
(41_key_matrix_scanner.md R80). -/
def kpPass (pressed kp : Bool) : Bool := kp || pressed

/-- What `RSVE` tests: no cell was pressed (41_key_matrix_scanner.md R81). -/
def kpNone (kp : Bool) : Bool := !kp

end Sys2Proof.Machine
end

