-- ==== Sys2Proof/Machine/Oscillator.lean ====
section
/-! DEFINITION. The three pure functions a tick is made of (43_phase_accumulator_oscillator.md R105 to R108). -/

namespace Sys2Proof.Machine

/-- `Advance(acc, s) = (acc + s) mod 2^32` (R105). -/
def advancePhase (acc s : StepSize) : StepSize := acc + s

/-- The accumulator's most-significant byte, `ACC[31:24]` (R106, 20_memory.md R34). -/
def topByte (acc : StepSize) : BitVec 8 := acc.extractLsb' 24 8

/-- `toS8(b) = b - 128`, read as two's complement (R106). It is also the whole output table, for an implementation
that keeps the shape as one (R108). -/
def toS8 (b : BitVec 8) : SampleWord := b - 128#8

/-- `Sample(acc) = acc[31:24] - 128` (R106). -/
def sampleOf (acc : StepSize) : SampleWord := toS8 (topByte acc)

/-- `Emit(v) = (v + 128) >> (8 - OUT_BITS)` on the signed value of `v`, computed exactly and then narrowed to the
output's width (R107). -/
def emit (v : SampleWord) : OutWord := BitVec.ofNat 8 ((v.toInt + 128).toNat >>> (8 - Config.outBits))

end Sys2Proof.Machine
end

