-- ==== Sys2Proof/Machine/Ops.lean ====
section
/-! DEFINITION. The named operations over the state that the meanings share: the bus helpers, the columns, the resolution, the interrupt, reset, and FG's position in its program. -/

namespace Sys2Proof.Machine

/-! ### The mux bus (40_mux_controller.md) -/

/-- The peripheral line that is addressed under asserted enable, if there is one (R69, 10_state.md R14). -/
def drivenLine (s : State) : Option (Fin 5) :=
  if s.en then (match muxTarget s.addr with | .row _ => none | .line k => some k) else none

/-- `BusTouch()` (R69): the settle time starts again, and the line that is driven is in transition, a draw. -/
def busTouch (s : State) : State :=
  { s with
    settle := 0
    outl := match drivenLine s with
      | some k => writeBit s.outl k.val (Config.anyBit s.draws)
      | none => s.outl
    draws := if (drivenLine s).isSome then s.draws + 1 else s.draws }

/-- `SETTLE` after at least `n` microseconds more: `min(3, SETTLE + n)` (R69). -/
def settleAfter (t : Fin 4) (n : Nat) : Fin 4 := ⟨min 3 (t.val + n), by omega⟩

/-- `Elapse(n)` (R69): time passes, and the line that is driven takes the data level once it has been held for
`T_OUT`. -/
def elapse (n : Nat) (s : State) : State :=
  { s with
    settle := settleAfter s.settle n
    outl := match drivenLine s with
      | some k => if Config.tOut ≤ (settleAfter s.settle n).val then writeBit s.outl k.val s.data else s.outl
      | none => s.outl }

/-- `EN <- v; BusTouch()` (R60, R61). -/
def driveEnable (v : Bool) (s : State) : State := busTouch { s with en := v }

/-- `ADDR <- a; BusTouch()` (R62). -/
def driveAddress (a : MuxAddr) (s : State) : State := busTouch { s with addr := a }

/-- `DATA <- v; BusTouch()` (R63). -/
def driveData (v : Bool) (s : State) : State := busTouch { s with data := v }

/-! ### The scanner (41_key_matrix_scanner.md) -/

/-- The row whose keys the columns show: the selected row, once it has settled for `T_ROW` (R75). -/
def settledRow (s : State) : Option (Fin 3) := if Config.tRow ≤ s.settle.val then s.rowsel else none

/-- `COL(c)` (R75): low exactly when the key at the settled row's column `c` is held; otherwise unspecified, bit `c`
of the present draw (log 2). -/
def column (s : State) (c : Fin 4) : Bool :=
  match settledRow s with
  | some q => !s.held (cellIndex q c)
  | none => (Config.any 4 s.draws).getLsbD c.val

/-- The matrix with the four levels `f` in the cells of row `r`. -/
def writeRow (km : BitVec 32) (r : Fin 3) (f : Fin 4 → Bool) : BitVec 32 :=
  writeBit (writeBit (writeBit (writeBit km (cellIndex r 0).val (f 0)) (cellIndex r 1).val (f 1))
    (cellIndex r 2).val (f 2)) (cellIndex r 3).val (f 3)

/-- `for c in 0..3: KM[4*r + c] <- COL(c)`, all four on the state before the step (R77). -/
def sampleRow (r : Fin 3) (s : State) : State :=
  { s with
    km := writeRow s.km r (column s)
    draws := if (settledRow s).isSome then s.draws else s.draws + 1 }

/-- `for i in 0..31: KM[i] <- ANY(1)` (R76; log 2). -/
def recreateMatrix (s : State) : State := { s with km := Config.any 32 s.draws, draws := s.draws + 1 }

/-- `KP <- 0` (R79). -/
def beginResolution (s : State) : State := { s with kp := kpBegin }

/-- `if KM[i] = 0 then { CSS <- STEP[i]; NOTE <- i; KP <- 1 }` (R80). -/
def resolvePass (i : Fin 12) (s : State) : State :=
  { s with
    css := if s.pressed i then Config.stepSize i else s.css
    note := if s.pressed i then some i else s.note
    kp := kpPass (s.pressed i) s.kp }

/-- `if KP = 0 then { CSS <- 0; NOTE <- none }` (R81). -/
def endResolution (s : State) : State :=
  { s with
    css := if kpNone s.kp then 0#32 else s.css
    note := if kpNone s.kp then none else s.note }

/-! ### The interrupt (44_sample_rate_timer.md R121; 60_exceptions.md R155, R156) -/

/-- Taking the one interrupt, serving it and returning from it: nothing is saved, nothing is restored, and the tick
is its whole effect (R121, R155, R156). -/
def takeTick (s : State) : State :=
  { s with
    acc := advancePhase s.acc s.css
    audio := emit (sampleOf (advancePhase s.acc s.css)) }

/-! ### FG's position in its program (10_state.md R25; log 9) -/

/-- Some step of FG stands in the list. -/
def hasForeground (ws : List CommandWord) : Bool := ws.any isForeground

/-- FG has executed the last step of a pass, and the loop body has a step to go back to. A body that holds event words
only has none: FG has no step left, and `FGPC` just goes on past the last one (log 24). -/
def passDone (s : State) : Bool := !hasForeground s.rest && hasForeground s.loop

/-- "Each atomic step advances `FGPC` by one step; the end of the loop body sets it back to the first step of the
loop" (R25). Event words of the listing that follow the pass's last step still stand in `rest`. -/
def advanceFg (s : State) : State :=
  { s with fgpc := if passDone s then (streamSteps s.prog).length else s.fgpc + 1 }

/-- The loop body stands in the stream again once every word before it is executed (30_encoding.md R53), whether it
holds steps of FG or event words only (log 9, log 24). A finite stream has no body. -/
def refill (s : State) : State :=
  { s with
    rest := if s.rest.isEmpty then s.loop else s.rest
    fgpc := if s.rest.isEmpty then (streamSteps s.prog).length else s.fgpc }

/-- The words of the atomic steps stand in the stream in the composite's place (30_encoding.md R51). -/
def pushSteps (is : List Instr) (s : State) : State := { s with rest := is.map encode ++ s.rest }

/-- One atomic step of FG: its effect, and FG's position advances. -/
def fgStep (f : State → State) (s : State) : Host.Outcome State Fault Refusal := .next (advanceFg (f s))

/-- The first atomic step of a composite, the others left in the stream (30_encoding.md R51; log 8). -/
def fgExpand (f : State → State) (is : List Instr) (s : State) : Host.Outcome State Fault Refusal :=
  fgStep f (pushSteps is.tail s)

/-! ### Environment and reset -/

/-- `KEY[i] <- v` (45_foreground_sequencer.md R144). -/
def setKey (i : Fin 12) (v : Bool) (s : State) : State := { s with key := writeBit s.key i.val v }

/-- The program as FG finds it at its first step again: the steps it has executed, from the straight part and the pass
of the loop body it is in, stand in front of the words still to come. The event words among those keep their places,
and so do reserved words; event words whose step has been taken are gone (log 12). -/
def rewound (s : State) : List CommandWord :=
  ((streamSteps s.prog ++ streamSteps s.loop).take s.fgpc).map encode ++ s.rest

/-- The reset event (70_reset_and_hazards.md R175, R176): every element takes its reset value, `KEY` and the program
stay, and FG is at the first step of the program. -/
def applyReset (s : State) : State :=
  { State.afterReset s.draws s.key s.prog s.loop s.sched with rest := rewound s }

/-! ### What the core exposes (45_foreground_sequencer.md R141) -/

/-- What the display reads: cells 0 to 11, the index of the sounding note, and its label through the ROM. -/
def displayView (s : State) : BitVec 12 × Option (Fin 12) × Option String :=
  (s.km.extractLsb' 0 12, s.note, s.note.map Config.label)

end Sys2Proof.Machine
end

