-- ==== Sys2Proof/Machine/Clock.lean ====
section
/-! DEFINITION. The meanings of the sample clock's operations (44_sample_rate_timer.md). -/

namespace Sys2Proof.Machine

/-- `ARM`: `ARMED <- 1` (R120). -/
def execArm (s : State) : Host.Outcome State Fault Refusal := fgStep (fun u => { u with armed := true }) s

/-- `TICK`, enabled only when `ARMED = 1` (R121); a tick placed before arming describes no run (log 10). It is no step
of FG, so `FGPC` stays. -/
def execTick (s : State) : Host.Outcome State Fault Refusal :=
  match s.armed with
  | true => .next (takeTick s)
  | false => .refused .tickNotArmed

end Sys2Proof.Machine
end

