-- ==== Sys2Proof/Machine/Events.lean ====
section
/-! DEFINITION. The meanings of the event words of the environment and of reset (45_foreground_sequencer.md R144, 70_reset_and_hazards.md R175). They are no steps of FG. -/

namespace Sys2Proof.Machine

/-- `RESET` (R175). -/
def execReset (s : State) : Host.Outcome State Fault Refusal := .next (applyReset s)

/-- `KEYDN i`: `KEY[i] <- 1` (R144); an index 12 to 15 is refused (30_encoding.md R50). -/
def execKeydn (i : NoteField) (s : State) : Host.Outcome State Fault Refusal :=
  match noteOf i with
  | some n => .next (setKey n true s)
  | none => .refused .reservedOperand

/-- `KEYUP i`: `KEY[i] <- 0` (R144); an index 12 to 15 is refused (30_encoding.md R50). -/
def execKeyup (i : NoteField) (s : State) : Host.Outcome State Fault Refusal :=
  match noteOf i with
  | some n => .next (setKey n false s)
  | none => .refused .reservedOperand

end Sys2Proof.Machine
end

