-- ==== Sys2Proof/Machine/Foreground.lean ====
section
/-! DEFINITION. The meanings of the foreground sequencer's operations (45_foreground_sequencer.md). -/

namespace Sys2Proof.Machine

/-- `LEDT`: `LED <- 1 - LED` (R138). -/
def execLedt (s : State) : Host.Outcome State Fault Refusal := fgStep (fun u => { u with led := !u.led }) s

/-- `WAIT100`: `Elapse(100000)` (R139). -/
def execWait100 (s : State) : Host.Outcome State Fault Refusal := fgStep (elapse Config.tFg) s

/-- `STARTUP` (R135). -/
def execStartup (s : State) : Host.Outcome State Fault Refusal := fgExpand (driveEnable false) startupSteps s

/-- `FGITER` (R137). -/
def execFgiter (s : State) : Host.Outcome State Fault Refusal := fgExpand (elapse Config.tFg) fgiterSteps s

end Sys2Proof.Machine
end

