-- ==== Sys2Proof/Machine/Mux.lean ====
section
/-! DEFINITION. The meanings of the mux controller's operations (40_mux_controller.md). -/

namespace Sys2Proof.Machine

/-- `ENL` (R60). -/
def execEnl (s : State) : Host.Outcome State Fault Refusal := fgStep (driveEnable false) s

/-- `ENH` (R61). -/
def execEnh (s : State) : Host.Outcome State Fault Refusal := fgStep (driveEnable true) s

/-- `ADR a` (R62). -/
def execAdr (a : MuxAddr) (s : State) : Host.Outcome State Fault Refusal := fgStep (driveAddress a) s

/-- `DAT v` (R63). -/
def execDat (v : Bool) (s : State) : Host.Outcome State Fault Refusal := fgStep (driveData v) s

/-- `DLY2`: `Elapse(2)` (R64). -/
def execDly2 (s : State) : Host.Outcome State Fault Refusal := fgStep (elapse Config.tOut) s

/-- `DLY3`: `Elapse(3)` (R65). -/
def execDly3 (s : State) : Host.Outcome State Fault Refusal := fgStep (elapse Config.tRow) s

/-- `SETOUT a, v` (R66). -/
def execSetout (a : MuxAddr) (v : Bool) (s : State) : Host.Outcome State Fault Refusal :=
  fgExpand (driveEnable false) (setoutSteps a v) s

/-- `SELROW a` (R67). -/
def execSelrow (a : MuxAddr) (s : State) : Host.Outcome State Fault Refusal :=
  fgExpand (driveAddress a) (selrowSteps a) s

end Sys2Proof.Machine
end

