-- ==== Sys2Proof/Machine/Scanner.lean ====
section
/-! DEFINITION. The meanings of the key matrix scanner's operations (41_key_matrix_scanner.md). -/

namespace Sys2Proof.Machine

/-- `KMNEW` (R76). -/
def execKmnew (s : State) : Host.Outcome State Fault Refusal := fgStep recreateMatrix s

/-- `SMP r` (R77); a row 3 to 7 is refused (30_encoding.md R50). -/
def execSmp (r : BitVec 3) (s : State) : Host.Outcome State Fault Refusal :=
  match rowOf r with
  | some q => fgStep (sampleRow q) s
  | none => .refused .reservedOperand

/-- `RSVB` (R79). -/
def execRsvb (s : State) : Host.Outcome State Fault Refusal := fgStep beginResolution s

/-- `RSVI i` (R80); an index 12 to 15 is refused (30_encoding.md R50). -/
def execRsvi (i : NoteField) (s : State) : Host.Outcome State Fault Refusal :=
  match noteOf i with
  | some n => fgStep (resolvePass n) s
  | none => .refused .reservedOperand

/-- `RSVE` (R81). -/
def execRsve (s : State) : Host.Outcome State Fault Refusal := fgStep endResolution s

/-- `SCANROW r` (R78); a row 3 to 7 is refused (30_encoding.md R50). -/
def execScanrow (r : BitVec 3) (s : State) : Host.Outcome State Fault Refusal :=
  match rowOf r with
  | some _ => fgExpand (driveAddress r) (scanrowSteps r) s
  | none => .refused .reservedOperand

/-- `RESOLVE` (R82). -/
def execResolve (s : State) : Host.Outcome State Fault Refusal := fgExpand beginResolution resolveSteps s

/-- `SCAN` (R83). -/
def execScan (s : State) : Host.Outcome State Fault Refusal := fgExpand recreateMatrix scanSteps s

end Sys2Proof.Machine
end

