-- ==== Sys2Proof/Machine/Dispatch.lean ====
section
/-! DEFINITION. What each command does: one arm per constructor of Instr. -/

namespace Sys2Proof.Machine

def exec (i : Instr) (s : State) : Host.Outcome State Fault Refusal :=
  match i with
  | .enl => Sys2Proof.Machine.execEnl s
  | .enh => Sys2Proof.Machine.execEnh s
  | .dat v => Sys2Proof.Machine.execDat v s
  | .dly2 => Sys2Proof.Machine.execDly2 s
  | .dly3 => Sys2Proof.Machine.execDly3 s
  | .wait100 => Sys2Proof.Machine.execWait100 s
  | .adr a => Sys2Proof.Machine.execAdr a s
  | .smp r => Sys2Proof.Machine.execSmp r s
  | .kmnew => Sys2Proof.Machine.execKmnew s
  | .rsvb => Sys2Proof.Machine.execRsvb s
  | .rsve => Sys2Proof.Machine.execRsve s
  | .ledt => Sys2Proof.Machine.execLedt s
  | .arm => Sys2Proof.Machine.execArm s
  | .rsvi n => Sys2Proof.Machine.execRsvi n s
  | .selrow a => Sys2Proof.Machine.execSelrow a s
  | .scanrow r => Sys2Proof.Machine.execScanrow r s
  | .setout a v => Sys2Proof.Machine.execSetout a v s
  | .resolve => Sys2Proof.Machine.execResolve s
  | .scan => Sys2Proof.Machine.execScan s
  | .startup => Sys2Proof.Machine.execStartup s
  | .fgiter => Sys2Proof.Machine.execFgiter s
  | .tick => Sys2Proof.Machine.execTick s
  | .reset => Sys2Proof.Machine.execReset s
  | .keydn n => Sys2Proof.Machine.execKeydn n s
  | .keyup n => Sys2Proof.Machine.execKeyup n s

end Sys2Proof.Machine
end

