-- ==== Sys2Proof/Machine/Schedule.lean ====
section
/-! DEFINITION. Whose turn it is and which command that turn runs (00_scope.md R4, 44_sample_rate_timer.md R122), and how a command stream is given to the machine. -/

namespace Sys2Proof.Machine

/-- `s` with the turns `σ` scheduled. -/
def State.under (s : State) (σ : List Turn) : State := { s with sched := σ }

/-- `s` with the words `ws` of its program still to be executed. -/
def State.withRest (s : State) (ws : List CommandWord) : State := { s with rest := ws }

/-- What a turn comes to. -/
inductive Fetched where
  /-- the command `i` runs, from the state that is left once the turn and the word are taken -/
  | run (i : Instr) (s : State)
  /-- no agent steps in this turn -/
  | idle (s : State)
  /-- there is nothing to run -/
  | stop (r : Refusal)
  deriving DecidableEq, Repr

/-- The refusal a word the decoder refuses comes to (30_encoding.md R49, R50). -/
def refusalOf : DecodeError → Refusal
  | .reservedWord => .reservedWord
  | .reservedOperand => .reservedOperand

/-- FG's turn: the next word of the stream. An event word is not FG's to execute: it stands where a step of another
agent is scheduled, and that step is taken in this turn (30_encoding.md R45; log 7). -/
def fetchWord (s : State) : Fetched :=
  match (refill s).rest with
  | [] => .stop .streamEnded
  | w :: ws =>
    match decode w with
    | .ok i => .run i ((refill s).withRest ws)
    | .error e => .stop (refusalOf e)

/-- The next turn of the schedule; FG's, where none is listed. While the clock is not armed it does not fire
(44_sample_rate_timer.md R122), so its turn passes. -/
def fetch (s : State) : Fetched :=
  match s.sched with
  | [] => fetchWord s
  | .fg :: ts => fetchWord (s.under ts)
  | .sc :: ts => if s.armed then .run .tick (s.under ts) else .idle (s.under ts)
  | .keydn i :: ts => .run (.keydn (noteField i)) (s.under ts)
  | .keyup i :: ts => .run (.keyup (noteField i)) (s.under ts)
  | .reset :: ts => .run .reset (s.under ts)

/-- A command stream is given to the machine: FG is at its first step (30_encoding.md R45, 45_foreground_sequencer.md
R136). `body` is repeated for ever after `straight`; a finite stream has none. -/
def loadStream (straight body : List CommandWord) (s : State) : State :=
  { s with prog := straight, loop := body, rest := straight, fgpc := 0 }

/-- Everything it takes for the next turn to run the word `w`: the one-word stream is loaded, the turn is FG's, and
the clock is armed where the word is a firing of it, which only an armed clock makes (44_sample_rate_timer.md R121;
log 13). -/
def presentWord (w : CommandWord) (s : State) : State :=
  { s with
    prog := [w], loop := [], rest := [w], fgpc := 0
    sched := .fg :: s.sched
    armed := s.armed || w == encode .tick }

end Sys2Proof.Machine
end

