-- ==== Sys2Proof/Machine/Step.lean ====
section
/-! DEFINITION. One step of the machine: the next turn is taken and the command it runs is executed. -/

namespace Sys2Proof.Machine

/-- One step of one agent: one atomic step of FG, one tick, one key event or one reset (00_scope.md R9). -/
def step (s : State) : Host.Outcome State Fault Refusal :=
  match fetch s with
  | .run i t => exec i t
  | .idle t => .next t
  | .stop r => .refused r

/-- `s` with the table row's word where the next step fetches (log 13). -/
def State.withFetchWord (s : State) (nbits w : Nat) : State := presentWord (tableWord nbits w) s

end Sys2Proof.Machine
end

