-- ==== Sys2Proof/Machine/Listing.lean ====
section
/-! DEFINITION. Listings: the pseudo-operations and the shorthand of the assembler's syntax (30_encoding.md R53, R54). -/

namespace Sys2Proof.Machine

/-- `PULSE a` = `SETOUT a, 0; SETOUT a, 1` (R54). -/
def pulse (a : MuxAddr) : List Instr := [.setout a false, .setout a true]

/-- `PRESS i` = `KEYDN i` (R54). -/
def press (i : NoteField) : List Instr := [.keydn i]

/-- `RELEASE i` = `KEYUP i` (R54). -/
def release (i : NoteField) : List Instr := [.keyup i]

/-- A finite listing: commands, one after the other, and `REPEAT n { … }` (R53). `LOOP { … }` is the loop body of
`loadStream`. -/
inductive Listing where
  | done
  | command (i : Instr) (next : Listing)
  | repeated (n : Nat) (body next : Listing)
  deriving DecidableEq, Repr

/-- The commands a listing spells, `REPEAT` unrolled (R53, 45_foreground_sequencer.md R142). -/
def Listing.commands : Listing → List Instr
  | .done => []
  | .command i l => i :: l.commands
  | .repeated n b l => (List.replicate n b.commands).flatten ++ l.commands

/-- The words of a listing. -/
def Listing.assemble (l : Listing) : List CommandWord := l.commands.map encode

/-- The boot program as a listing: `STARTUP; ARM;` and, for ever, `FGITER` (45_foreground_sequencer.md R136). -/
def bootListing : Listing × Listing := (.command .startup (.command .arm .done), .command .fgiter .done)

end Sys2Proof.Machine
end

