-- ==== Sys2Proof/Safety.lean ====
section
/-! DEFINITION. The terms claims about the core use: runs under a schedule, reachable states, what a group of steps leaves alone, and the conditions a good state meets. -/

namespace Sys2Proof.Machine

/-! ### Runs -/

/-- `n` steps, stopping where a step has no next state. -/
def runSteps : Nat → State → Host.Outcome State Fault Refusal
  | 0, s => .next s
  | n + 1, s =>
    match step s with
    | .next t => runSteps n t
    | .fault r => .fault r
    | .refused r => .refused r

/-- The run in which the turns `σ` are taken, one after the other, and nothing else. The schedule is the choice of `σ`
(44_sample_rate_timer.md R122), so a claim about every schedule is a claim about every `σ`. -/
def runUnder (σ : List Turn) (s : State) : Host.Outcome State Fault Refusal :=
  runSteps σ.length (s.under σ)

/-- `n` turns of FG with nothing scheduled between them. -/
def fgTurns (n : Nat) : List Turn := List.replicate n .fg

/-- The state before `s` fetched `i`: the word of `i` stands in front of the stream. -/
def atCommand (i : Instr) (s : State) : State := s.withRest (encode i :: s.rest)

/-- The states of the hardware: every run begins with a reset and follows some schedule of ticks, key events and
further resets (70_reset_and_hazards.md R175, R178). -/
def Reachable (t : State) : Prop := ∃ σ, runUnder σ State.reset = .next t

/-- The schedule holds turns of FG and of the sample clock only: no key changes, no reset. -/
def OnlyTicks (σ : List Turn) : Prop := ∀ u ∈ σ, u = .fg ∨ u = .sc

/-- Weak fairness of an endless schedule (44_sample_rate_timer.md R122): the sample clock and FG take infinitely many
turns. -/
def FairSchedule (σ : Nat → Turn) : Prop :=
  (∀ n, ∃ m, n ≤ m ∧ σ m = .fg) ∧ (∀ n, ∃ m, n ≤ m ∧ σ m = .sc)

/-- The first `n` turns of an endless schedule. -/
def turnsUpTo (σ : Nat → Turn) (n : Nat) : List Turn := (List.range n).map σ

/-! ### What steps leave alone -/

/-- The bus pins and everything downstream of them are as they were. -/
def SameBus (s t : State) : Prop :=
  t.addr = s.addr ∧ t.en = s.en ∧ t.data = s.data ∧ t.settle = s.settle ∧ t.outl = s.outl

/-- The matrix register and the flag are as they were. -/
def SameScanner (s t : State) : Prop := t.km = s.km ∧ t.kp = s.kp

/-- The current step size and the note are as they were. -/
def SameSound (s t : State) : Prop := t.css = s.css ∧ t.note = s.note

/-- The accumulator and the audio output are as they were. -/
def SameOscillator (s t : State) : Prop := t.acc = s.acc ∧ t.audio = s.audio

/-- The arming bit, the LED and the keys are as they were. -/
def SameOutside (s t : State) : Prop := t.armed = s.armed ∧ t.led = s.led ∧ t.key = s.key

/-- FG executes the same program and has gone `n` atomic steps on (10_state.md R25). -/
def FgWentOn (n : Nat) (s t : State) : Prop :=
  t.prog = s.prog ∧ t.loop = s.loop ∧ t.rest = s.rest ∧
    t.fgpc = if passDone s then (streamSteps s.prog).length else s.fgpc + n

/-- The display's lines carry what the startup sequence leaves: reset released, power enabled
(45_foreground_sequencer.md R135). -/
def DisplayOn (s : State) : Prop := s.line 0 = Config.denOn ∧ s.line 1 = !Config.drstAssert

/-- What a complete resolution makes of the cells `pressed`: the highest pressed index sounds, or none
(41_key_matrix_scanner.md R82, R84 to R86). -/
def Resolved (pressed : Fin 12 → Bool) (t : State) : Prop :=
  ((∀ i, pressed i = false) → t.css = 0#32 ∧ t.note = none ∧ t.kp = false) ∧
    ∀ m, pressed m = true → (∀ i, pressed i = true → i ≤ m) →
      t.css = Config.stepSize m ∧ t.note = some m ∧ t.kp = true

/-! ### Conditions every step keeps -/

/-- `NOTE` is in step with `CSS` (10_state.md R19, D7), so `CSS` is 0 or an entry of the table
(42_note_lookup_table.md R98). -/
def NoteInStep (s : State) : Prop :=
  (s.note = none → s.css = 0#32) ∧ ∀ i, s.note = some i → s.css = Config.stepSize i

/-- A line that has been driven for the settle time carries the data level (10_state.md R14). -/
def LineSettled (s : State) : Prop :=
  ∀ k, drivenLine s = some k → 2 ≤ s.settle.val → s.line k = s.data

/-- `FGPC` is the index of the step FG is at (10_state.md R25), in the list of atomic steps that the straight part of
the program and a pass of the loop body make: the steps still to come are those from `FGPC` on, to the end of the
straight part or to the end of the pass. -/
def PositionInStep (s : State) : Prop :=
  ∃ body, (body = [] ∨ body = streamSteps s.loop) ∧ s.fgpc ≤ (streamSteps s.prog ++ body).length ∧
    streamSteps s.rest = (streamSteps s.prog ++ body).drop s.fgpc

/-- The program has no end and holds nothing but commands of FG, as the boot program does
(45_foreground_sequencer.md R136). -/
def OwnCommands (s : State) : Prop :=
  s.loop ≠ [] ∧ ∀ w ∈ s.prog ++ s.loop ++ s.rest, ∃ i, decode w = .ok i ∧ i.agent = .fg

/-- FG is at a step of the boot program, and the bus, lines 3 and 4 and the arming bit are as the steps before it left
them: steps 0 to 17 are `STARTUP`, step 18 is `ARM`, steps 19 to 47 are `FGITER` (45_foreground_sequencer.md R135 to
R137). -/
structure AtBootStep (s : State) : Prop where
  prog : s.prog = bootStraight
  loop : s.loop = bootLoop
  own : OwnCommands s
  position : PositionInStep s
  armed : s.armed = decide (19 ≤ s.fgpc)
  /-- a strobe's last two steps before its final `ENL` hold enable asserted -/
  strobe : 1 ≤ s.fgpc → s.fgpc ≤ 18 → s.en = decide (s.fgpc % 6 = 4 ∨ s.fgpc % 6 = 5)
  addrReset : 2 ≤ s.fgpc → s.fgpc ≤ 13 → s.addr = Config.muxDrst
  addrPower : 14 ≤ s.fgpc → s.fgpc ≤ 18 → s.addr = Config.muxDen
  dataAssert : 3 ≤ s.fgpc → s.fgpc ≤ 8 → s.data = Config.drstAssert
  dataRelease : 9 ≤ s.fgpc → s.data = !Config.drstAssert
  resetHeld : 5 ≤ s.fgpc → s.fgpc ≤ 9 → s.line 1 = Config.drstAssert
  resetReleased : 11 ≤ s.fgpc → s.line 1 = !Config.drstAssert
  powered : 17 ≤ s.fgpc → s.line 0 = Config.denOn
  /-- the foreground loop drives no line -/
  noLine : 19 ≤ s.fgpc → drivenLine s = none
  /-- from the first `ADR` of a scan on, a row is addressed -/
  rowAddressed : 22 ≤ s.fgpc → s.addr.toNat ≤ 2
  /-- lines 5 to 7 are never addressed -/
  addrLow : 2 ≤ s.fgpc → s.addr.toNat ≤ 4

end Sys2Proof.Machine
end

