-- ==== Sys2Proof/Certificates/Slice0/Obligations.lean ====
section
/-! DEFINITION. The statements about the core, for the provers. Each docstring names the rules of spec/ it formalises. -/

open Sys2Proof Sys2Proof.Machine

/-! ### Encoding -/

/-- Decoding the word of any well-formed command gives the command back, with every operand (30_encoding.md R48, R55).
That each pattern is the spec's is what `WordsOfTheMapDecode` and the tests say. -/
def Obligations.DecodeEncodeAgree : Prop := ∀ i : Instr, i.wf = true → decode (encode i) = .ok i

/-- Every accepted word has exactly one command, a well-formed one, whose word it is (R55: "Decode then encode is the
identity on every accepted word"). -/
def Obligations.EncodeDecodeAgree : Prop := ∀ w i, decode w = .ok i → i.wf = true ∧ encode i = w

/-- The reserved words are the ones R49 lists, no others, and FG's turn on one is refused by that name. -/
def Obligations.ReservedWordsRefused : Prop :=
  ∀ w : CommandWord,
    (decode w = .error .reservedWord ↔
      w.toNat = 0x07 ∨ (0x1D ≤ w.toNat ∧ w.toNat ≤ 0x1F) ∨ (0x30 ≤ w.toNat ∧ w.toNat ≤ 0x3F) ∨
        (0x64 ≤ w.toNat ∧ w.toNat ≤ 0x7F) ∨ (0x82 ≤ w.toNat ∧ w.toNat ≤ 0x8F) ∨ 0xB0 ≤ w.toNat) ∧
    ∀ s ws σ, s.rest = w :: ws → (s.sched = [] ∨ s.sched = .fg :: σ) → decode w = .error .reservedWord →
      step s = .refused .reservedWord

/-- The reserved operands are the ones R50 lists, no others, and FG's turn on one is refused by that name; `ADR`,
`SELROW` and `SETOUT` are defined for every address. -/
def Obligations.ReservedOperandsRefused : Prop :=
  (∀ w : CommandWord,
    (decode w = .error .reservedOperand ↔
      (0x13 ≤ w.toNat ∧ w.toNat ≤ 0x17) ∨ (0x4B ≤ w.toNat ∧ w.toNat ≤ 0x4F) ∨ (0x2C ≤ w.toNat ∧ w.toNat ≤ 0x2F) ∨
        (0x9C ≤ w.toNat ∧ w.toNat ≤ 0x9F) ∨ (0xAC ≤ w.toNat ∧ w.toNat ≤ 0xAF)) ∧
    ∀ s ws σ, s.rest = w :: ws → (s.sched = [] ∨ s.sched = .fg :: σ) → decode w = .error .reservedOperand →
      step s = .refused .reservedOperand) ∧
  ∀ (a : MuxAddr) (v : Bool),
    decode (encode (.adr a)) = .ok (.adr a) ∧ decode (encode (.selrow a)) = .ok (.selrow a) ∧
      decode (encode (.setout a v)) = .ok (.setout a v)

/-- A term with an operand that names no row or no note is refused by exec too, in every state (R50; log 21). -/
def Obligations.ReservedOperandTermsRefused : Prop :=
  ∀ s : State,
    (∀ r : BitVec 3, 3 ≤ r.toNat →
      exec (.smp r) s = .refused .reservedOperand ∧ exec (.scanrow r) s = .refused .reservedOperand) ∧
    ∀ i : NoteField, 12 ≤ i.toNat →
      exec (.rsvi i) s = .refused .reservedOperand ∧ exec (.keydn i) s = .refused .reservedOperand ∧
        exec (.keyup i) s = .refused .reservedOperand

/-- Words written out from the patterns of R48 decode to the commands they stand for, one or more of each format. -/
def Obligations.WordsOfTheMapDecode : Prop :=
  decode 0b00000001#8 = .ok .enh ∧ decode 0b00000010#8 = .ok (.dat false) ∧ decode 0b00000011#8 = .ok (.dat true) ∧
  decode 0b00001101#8 = .ok (.adr 5#3) ∧ decode 0b00010010#8 = .ok (.smp 2#3) ∧
  decode 0b00101011#8 = .ok (.rsvi 11#4) ∧ decode 0b01000101#8 = .ok (.selrow 5#3) ∧
  decode 0b01001010#8 = .ok (.scanrow 2#3) ∧ decode 0b01010100#8 = .ok (.setout 4#3 false) ∧
  decode 0b01011011#8 = .ok (.setout 3#3 true) ∧ decode 0b01100011#8 = .ok .fgiter ∧
  decode 0b10000000#8 = .ok .tick ∧ decode 0b10011011#8 = .ok (.keydn 11#4) ∧ decode 0b10100101#8 = .ok (.keyup 5#4)

/-- No word has the fixed bits of two rows of the map (R55: "the patterns are disjoint, so at most one matches"). -/
def Obligations.OpcodePatternsDisjoint : Prop :=
  ∀ w : CommandWord, (opcodeMap.filter (fun r => r.fits w)).length ≤ 1

/-! ### A step and the program -/

/-- The machine's reading of a turn of FG: the command that the next word of the stream spells runs, with that word taken
off the stream and that turn off the schedule. That turns are taken off a list, that an empty list means FG's turn, and
that an event word, which FG does not execute (R45), has its step taken in FG's turn where it stands, is the model's
choice (log 7). -/
def Obligations.StepRunsTheDecodedCommand : Prop :=
  ∀ s w ws i, s.rest = w :: ws → decode w = .ok i →
    (s.sched = [] → step s = exec i (s.withRest ws)) ∧
      ∀ σ, s.sched = .fg :: σ → step s = exec i ((s.withRest ws).under σ)

/-- The other turns: the armed clock ticks and an unarmed one does not (R122), the environment moves a key, and reset
happens. That these are turns of a list, and that a turn of the unarmed clock passes, is the model's choice (log 7). -/
def Obligations.OtherTurnsRunTheirEvents : Prop :=
  ∀ s σ,
    (s.sched = .sc :: σ → s.armed = true → step s = exec .tick (s.under σ)) ∧
    (s.sched = .sc :: σ → s.armed = false → step s = .next (s.under σ)) ∧
    (∀ k, s.sched = .keydn k :: σ → step s = exec (.keydn (noteField k)) (s.under σ)) ∧
    (∀ k, s.sched = .keyup k :: σ → step s = exec (.keyup (noteField k)) (s.under σ)) ∧
    (s.sched = .reset :: σ → step s = exec .reset (s.under σ))

/-- A finite stream's run has ended when FG has executed its last word (R136; the refusal's name is the model's,
log 11). -/
def Obligations.FinishedStreamEnds : Prop :=
  ∀ s σ, s.rest = [] → s.loop = [] → (s.sched = [] ∨ s.sched = .fg :: σ) → step s = .refused .streamEnded

/-- What the host's placement of a word comes to: the next step executes exactly the command it spells (log 13). -/
def Obligations.PlacedWordIsRunNext : Prop :=
  ∀ (s : State) n w i, decodeTableWord n w = some i →
    step (s.withFetchWord n w) =
      exec i { s with prog := [tableWord n w], loop := [], rest := [], fgpc := 0, armed := s.armed || i == .tick }

/-- `FGPC` goes on by one with each atomic step, and the end of the loop body takes it back to the body's first step
(10_state.md R25, 45_foreground_sequencer.md R142); event words that follow a pass's last step are still to come. When
no word is left the body's words come again, whether it holds steps of FG or event words only (30_encoding.md R53). The
equations are in the lists the model holds the program in (`rest`, `loop`, `prog`: log 9), and a body of event words
only is the model's reading (log 24). -/
def Obligations.PositionAdvancesOrLoops : Prop :=
  ∀ s : State,
    (hasForeground s.rest = true ∨ hasForeground s.loop = false → advanceFg s = { s with fgpc := s.fgpc + 1 }) ∧
    (hasForeground s.rest = false → hasForeground s.loop = true →
      advanceFg s = { s with fgpc := (streamSteps s.prog).length }) ∧
    ∀ w ws i, s.rest = [] → s.loop = w :: ws → decode w = .ok i →
      (s.sched = [] → step s = exec i { s with rest := ws, fgpc := (streamSteps s.prog).length }) ∧
        ∀ σ, s.sched = .fg :: σ →
          step s = exec i { s with rest := ws, fgpc := (streamSteps s.prog).length, sched := σ }

/-- A composite word is executed as the list of its atomic steps, as if their words stood in the stream in its place
(R51), and the lists have the lengths R51 gives. -/
def Obligations.CompositeStandsForItsSteps : Prop :=
  (∀ i, i.kind = .composite → i.wf = true →
    ∃ first more, atomics i = first :: more ∧ first.kind = .atomic ∧ (∀ j ∈ more, j.kind = .atomic) ∧
      ∀ s, exec i s = exec first (s.withRest (more.map encode ++ s.rest))) ∧
  ∀ (a : MuxAddr) (r : BitVec 3) (v : Bool),
    (atomics (.selrow a)).length = 2 ∧ (atomics (.setout a v)).length = 6 ∧ (atomics (.scanrow r)).length = 4 ∧
      (atomics .resolve).length = 14 ∧ (atomics .scan).length = 27 ∧ (atomics .startup).length = 18 ∧
      (atomics .fgiter).length = 29

/-! ### The mux bus -/

/-- `ENL`, word 00000000 (R60): enable falls, the settle time starts again, no line changes, nothing else does. -/
def Obligations.EnlDeassertsEnable : Prop :=
  decode 0b00000000#8 = .ok .enl ∧ ∀ s, exec .enl s = .next (advanceFg { s with en := false, settle := 0 })

/-- `ENH` (R61): enable rises, the settle time starts again, and an addressed line takes some level nobody states;
nothing else changes. -/
def Obligations.EnhAssertsEnable : Prop :=
  ∀ s, ∃ v : Bool, exec .enh s = .next (advanceFg { s with
    en := true
    settle := 0
    outl := if 3 ≤ s.addr.toNat then writeBit s.outl (s.addr.toNat - 3) v else s.outl
    draws := if 3 ≤ s.addr.toNat then s.draws + 1 else s.draws })

/-- `ADR a` (R62, R70): the three lines carry the bits of `a`, the settle time starts again, and under asserted enable
an addressed line takes some level nobody states; nothing else changes. -/
def Obligations.AdrDrivesTheAddressLines : Prop :=
  ∀ a s, ∃ (v : Bool) (t : State), exec (.adr a) s = .next t ∧
    (∀ k : Fin 3, addressLine t k = a.getLsbD k.val) ∧
    t = advanceFg { s with
      addr := a
      settle := 0
      outl := if s.en = true ∧ 3 ≤ a.toNat then writeBit s.outl (a.toNat - 3) v else s.outl
      draws := if s.en = true ∧ 3 ≤ a.toNat then s.draws + 1 else s.draws }

/-- `DAT d` (R63): the data line carries `d`, the settle time starts again, and under asserted enable an addressed line
takes some level nobody states; nothing else changes. -/
def Obligations.DatDrivesTheDataLine : Prop :=
  ∀ d s, ∃ v : Bool, exec (.dat d) s = .next (advanceFg { s with
    data := d
    settle := 0
    outl := if s.en = true ∧ 3 ≤ s.addr.toNat then writeBit s.outl (s.addr.toNat - 3) v else s.outl
    draws := if s.en = true ∧ 3 ≤ s.addr.toNat then s.draws + 1 else s.draws })

/-- `DLY2`, `DLY3` and `WAIT100` (R64, R65, R139): `SETTLE` rises by 2, by 3, to 3, and a line that is driven and has
been held for 2 microseconds takes the data level; nothing else changes. -/
def Obligations.DelaysLetTheBusSettle : Prop :=
  ∀ i n, (i, n) ∈ [(Instr.dly2, 2), (Instr.dly3, 3), (Instr.wait100, 100000)] → ∀ s : State,
    ∃ p : Fin 4, p.val = min 3 (s.settle.val + n) ∧
      exec i s = .next (advanceFg { s with
        settle := p
        outl := if s.en = true ∧ 3 ≤ s.addr.toNat ∧ 2 ≤ p.val
          then writeBit s.outl (s.addr.toNat - 3) s.data else s.outl })

/-- `SETOUT a, v` (R66): its first step runs, its five others follow, and whatever the state before, enable is low, the
pins carry `a` and `v`, and line `a`, where there is one, carries `v`; every other line and everything else is as it
was. -/
def Obligations.SetoutIsOneStrobeCycle : Prop :=
  ∀ a v s, ∃ t u, exec (.setout a v) s = .next t ∧ runUnder (fgTurns 5) t = .next u ∧
    u.en = false ∧ u.addr = a ∧ u.data = v ∧ u.settle = 0 ∧
    (∀ k : Fin 5, u.line k = if a.toNat = 3 + k.val then v else s.line k) ∧
    SameScanner s u ∧ SameSound s u ∧ SameOscillator s u ∧ SameOutside s u ∧ FgWentOn 6 s u

/-- `SELROW a` (R67): its two steps leave the address, asserted enable, the data line as it was, and the row selected
where `a` is one; only line `a` may change downstream. -/
def Obligations.SelrowLeavesReadMode : Prop :=
  ∀ a s, ∃ t u, exec (.selrow a) s = .next t ∧ runUnder (fgTurns 1) t = .next u ∧
    u.addr = a ∧ u.en = true ∧ u.data = s.data ∧ u.settle = 0 ∧
    (∀ q : Fin 3, u.rowsel = some q ↔ a.toNat = q.val) ∧
    (∀ k : Fin 5, a.toNat ≠ 3 + k.val → u.line k = s.line k) ∧
    SameScanner s u ∧ SameSound s u ∧ SameOscillator s u ∧ SameOutside s u ∧ FgWentOn 2 s u

/-- `PULSE a` (R54, R66): after each of its twelve steps the pins are as the trace says: enable is high in exactly two
disjoint intervals, address and data move only while it is low, and the line is low from the first hold and high from
the second. -/
def Obligations.PulseIsTwoStrobeCycles : Prop :=
  ∀ a s ws, s.rest = (pulse a).map encode ++ ws → ∀ n, 1 ≤ n → n ≤ 12 →
    ∃ t, runUnder (fgTurns n) s = .next t ∧ t.en = decide (n ∈ [4, 5, 10, 11]) ∧ (2 ≤ n → t.addr = a) ∧
      (3 ≤ n → t.data = decide (9 ≤ n)) ∧
      ∀ k : Fin 5, a.toNat = 3 + k.val →
        (5 ≤ n → n ≤ 9 → t.line k = false) ∧ (11 ≤ n → t.line k = true)

/-! ### The scanner -/

/-- `KMNEW` (R76): the matrix register takes some value nobody states; nothing else changes. -/
def Obligations.KmnewRecreatesTheMatrix : Prop :=
  ∀ s, ∃ m : BitVec 32, exec .kmnew s = .next (advanceFg { s with km := m, draws := s.draws + 1 })

/-- `SMP r` (R75, R77, R88): on a settled row `p` the four cells of row `r` take the inverted keys of row `p`; no other
cell and nothing else changes, settled or not. -/
def Obligations.SmpSamplesTheSelectedRow : Prop :=
  ∀ (r : BitVec 3) (q : Fin 3) (s : State), r.toNat = q.val → ∃ t, exec (.smp r) s = .next t ∧
    (∀ (p : Fin 3) (c : Fin 4), s.en = true → s.addr.toNat = p.val → s.settle.val = 3 →
      t.km.getLsbD (4 * q.val + c.val) = !s.key.getLsbD (4 * p.val + c.val)) ∧
    (∀ j, j / 4 ≠ q.val → t.km.getLsbD j = s.km.getLsbD j) ∧
    t.kp = s.kp ∧ SameBus s t ∧ SameSound s t ∧ SameOscillator s t ∧ SameOutside s t ∧ FgWentOn 1 s t

/-- `RSVB` (R79): the flag is cleared; nothing else changes, `CSS` and `NOTE` neither. -/
def Obligations.RsvbClearsTheFlag : Prop := ∀ s, exec .rsvb s = .next (advanceFg { s with kp := false })

/-- `RSVI i`, word 0010iiii (R80): a pressed cell sets the step size, the note and the flag; a released one changes
nothing, and never clears the flag; FG goes on by one step either way; operands 12 to 15 are refused. -/
def Obligations.RsviTakesAPressedCell : Prop :=
  (∀ (i : NoteField) (s : State), 12 ≤ i.toNat → decode (0b0010#4 ++ i) = .error .reservedOperand ∧
    exec (.rsvi i) s = .refused .reservedOperand) ∧
  ∀ (i : NoteField) (m : Fin 12) (s : State), i.toNat = m.val →
    decode (0b0010#4 ++ i) = .ok (.rsvi i) ∧
    (s.km.getLsbD m.val = false →
      exec (.rsvi i) s = .next (advanceFg { s with css := Config.stepSize m, note := some m, kp := true })) ∧
    (s.km.getLsbD m.val = true → exec (.rsvi i) s = .next (advanceFg s))

/-- `RSVE`, word 00011010 (R81): with the flag clear the step size becomes 0 and the note none, whatever they were; with
it set nothing changes; the accumulator and the output are not touched either way. -/
def Obligations.RsveSilencesWhenNonePressed : Prop :=
  decode 0b00011010#8 = .ok .rsve ∧ ∀ s : State,
    (s.kp = false → exec .rsve s = .next (advanceFg { s with css := 0#32, note := none })) ∧
    (s.kp = true → exec .rsve s = .next (advanceFg s))

/-- `SCANROW r` (R78): its four steps leave row `r` selected and settled and its cells showing its keys; nothing else
changes. -/
def Obligations.ScanrowSamplesItsRow : Prop :=
  ∀ (r : BitVec 3) (q : Fin 3) (s : State), r.toNat = q.val → ∃ t u, exec (.scanrow r) s = .next t ∧
    runUnder (fgTurns 3) t = .next u ∧ u.addr = r ∧ u.en = true ∧ u.settle.val = 3 ∧ u.data = s.data ∧
    u.outl = s.outl ∧
    (∀ c : Fin 4, u.km.getLsbD (4 * q.val + c.val) = !s.key.getLsbD (4 * q.val + c.val)) ∧
    (∀ j, j / 4 ≠ q.val → u.km.getLsbD j = s.km.getLsbD j) ∧
    u.kp = s.kp ∧ SameSound s u ∧ SameOscillator s u ∧ SameOutside s u ∧ FgWentOn 4 s u

/-- `RESOLVE` (R82, R84, R85, R86): its fourteen steps leave the step size of the highest pressed cell, or silence; the
matrix, the bus and the oscillator are not touched. -/
def Obligations.ResolveTakesTheHighestPressedCell : Prop :=
  ∀ s, ∃ t u, exec .resolve s = .next t ∧ runUnder (fgTurns 13) t = .next u ∧ Resolved s.pressed u ∧
    u.km = s.km ∧ SameBus s u ∧ SameOscillator s u ∧ SameOutside s u ∧ FgWentOn 14 s u

/-- `SCAN` (R83): with the keys as they are, its twenty-seven steps leave every cell 0 to 11 showing its key, the
highest held key sounding, and the bus in read mode on row 2; the lines, the data pin and the oscillator are not
touched. -/
def Obligations.ScanSoundsTheHighestHeldKey : Prop :=
  ∀ s, ∃ t u, exec .scan s = .next t ∧ runUnder (fgTurns 26) t = .next u ∧
    u.addr = 2#3 ∧ u.en = true ∧ u.settle.val = 3 ∧ u.data = s.data ∧ u.outl = s.outl ∧
    (∀ i : Fin 12, u.km.getLsbD i.val = !s.held i) ∧ Resolved s.held u ∧
    SameOscillator s u ∧ SameOutside s u ∧ FgWentOn 27 s u

/-- The order in which the three rows are sampled makes no difference (R90). -/
def Obligations.RowOrderMakesNoDifference : Prop :=
  ∀ rows : List (BitVec 3), rows.Perm [0#3, 1#3, 2#3] → ∀ s ws,
    s.rest = (rows.map Instr.scanrow ++ [Instr.resolve]).map encode ++ ws →
    ∃ u, runUnder (fgTurns 26) s = .next u ∧ (∀ i : Fin 12, u.km.getLsbD i.val = !s.held i) ∧ Resolved s.held u

/-- Cells 12 to 31 are read by no command: a state that differs in them only goes on to one that differs in them only
(20_memory.md R32, 10_state.md R16). -/
def Obligations.ArtifactCellsAreNeverRead : Prop :=
  ∀ i s t (m : BitVec 32), (∀ j, j < 12 → m.getLsbD j = s.km.getLsbD j) → exec i s = .next t →
    ∃ t', exec i { s with km := m } = .next t' ∧ (∀ j, j < 12 → t'.km.getLsbD j = t.km.getLsbD j) ∧
      t' = { t with km := t'.km }

/-- The core learns of a key only by a sampling of its row (R24, R75, R144): every command of FG but `SMP`, the tick and
reset do the same whatever the keys are; `SMP` does the same whatever the keys outside the settled row are, and where no
row is settled, whatever any key is; and none of them moves a key. -/
def Obligations.KeysReachTheCoreOnlyBySampling : Prop :=
  (∀ i s t (k : BitVec 12), i.agent ≠ .env → (∀ r, i ≠ .smp r) → exec i s = .next t →
    t.key = s.key ∧ exec i { s with key := k } = .next { t with key := k }) ∧
  ∀ r s t (k : BitVec 12), (∀ q c, settledRow s = some q → k.getLsbD (cellIndex q c).val = s.held (cellIndex q c)) →
    exec (.smp r) s = .next t → t.key = s.key ∧ exec (.smp r) { s with key := k } = .next { t with key := k }

/-! ### The oscillator and the clock -/

/-- `TICK`, word 10000000 (R121): enabled only while the clock is armed; the accumulator takes the sum, the output the
rescaled sample of the sum, which at 8 output bits is its top byte, and nothing else changes. -/
def Obligations.TickAdvancesAndEmits : Prop :=
  decode 0b10000000#8 = .ok .tick ∧
  ∀ s : State,
    (s.armed = true → exec .tick s = .next { s with
      acc := advancePhase s.acc s.css
      audio := emit (sampleOf (advancePhase s.acc s.css)) }) ∧
    (s.armed = false → ∀ t, exec .tick s ≠ .next t) ∧
    (Config.outBits = 8 → emit (sampleOf (advancePhase s.acc s.css)) = (s.acc + s.css).extractLsb' 24 8)

/-- What the model answers to a tick that is not enabled: a refusal by that name (log 10). -/
def Obligations.TickBeforeArmingIsRefused : Prop :=
  ∀ s : State, s.armed = false → exec .tick s = .refused .tickNotArmed

/-- The sample is the top byte minus 128, in -128 to 127, the same byte with its top bit inverted; the output is the
sample plus 128, and so the top byte again (R106, R107, R108). -/
def Obligations.SampleAndEmitArithmetic : Prop :=
  (∀ acc : StepSize,
    (sampleOf acc).toInt = (acc.toNat / 2 ^ 24 : Int) - 128 ∧ -128 ≤ (sampleOf acc).toInt ∧
      (sampleOf acc).toInt ≤ 127 ∧ sampleOf acc = acc.extractLsb' 24 8 ^^^ 128#8 ∧
      emit (sampleOf acc) = acc.extractLsb' 24 8) ∧
  ∀ v : SampleWord, ((emit v).toNat : Int) = v.toInt + 128

/-- Ticks add up (R109): `n` of them with one step size add `n` times that step modulo 2^32, the output follows the
accumulator, and nothing else moves; ticks that read a list of step sizes add its sum. -/
def Obligations.TicksAddUp : Prop :=
  (∀ n s, s.armed = true → ∃ u, runUnder (List.replicate n .sc) s = .next u ∧
    u.acc.toNat = (s.acc.toNat + n * s.css.toNat) % 2 ^ 32 ∧ (0 < n → u.audio = u.acc.extractLsb' 24 8) ∧
    u = { s with acc := u.acc, audio := u.audio, sched := [] }) ∧
  ∀ (l : List StepSize) (s : State), s.armed = true → ∃ u,
    l.foldlM (fun (t : State) c => match exec .tick { t with css := c } with
      | .next t' => some t'
      | _ => none) s = some u ∧ u.acc = s.acc + l.sum

/-- With a constant step size the accumulator is back where it was after `n` ticks exactly when `n` steps make up whole
turns of 2^32: the waveform's period (R111, R103). -/
def Obligations.SawtoothPeriod : Prop :=
  ∀ n s, s.armed = true → ∃ u, runUnder (List.replicate n .sc) s = .next u ∧
    (u.acc = s.acc ↔ 2 ^ 32 ∣ n * s.css.toNat)

/-- Releasing all keys does not reset the phase (R86, R110, R114): after a scan that finds none held, ticks leave the
accumulator where it was, and the output at its top byte. -/
def Obligations.ReleaseHoldsThePhase : Prop :=
  ∀ s ws n, s.armed = true → (∀ i, s.held i = false) → s.rest = encode .scan :: ws →
    ∃ u, runUnder (fgTurns 27 ++ List.replicate n .sc) s = .next u ∧ u.css = 0#32 ∧ u.note = none ∧
      u.acc = s.acc ∧ (n = 0 → u.audio = s.audio) ∧ (0 < n → u.audio = s.acc.extractLsb' 24 8)

/-- `ARM`, word 00011100 (R120): the arming bit is set and nothing else changes, so that on an armed clock nothing does;
from this step on ticks occur; no step of any agent disarms. -/
def Obligations.ArmStartsTheClock : Prop :=
  decode 0b00011100#8 = .ok .arm ∧
  (∀ s, ∃ t u, exec .arm s = .next t ∧ t = advanceFg { s with armed := true } ∧ exec .tick t = .next u) ∧
  ∀ i s t, i ≠ .reset → exec i s = .next t → s.armed = true → t.armed = true

/-- Only reset disarms the clock (R22, R127). -/
def Obligations.OnlyResetDisarms : Prop :=
  ∀ s t, step s = .next t → s.armed = true → t.armed = false →
    (∃ σ, s.sched = .reset :: σ) ∨
      ∃ ws, (refill s).rest = encode .reset :: ws ∧ (s.sched = [] ∨ ∃ σ, s.sched = .fg :: σ)

/-! ### The foreground, the environment, reset -/

/-- `LEDT`, word 00011011 (R138): the LED is inverted; nothing else changes. -/
def Obligations.LedtTogglesTheLed : Prop :=
  decode 0b00011011#8 = .ok .ledt ∧ ∀ s, exec .ledt s = .next (advanceFg { s with led := !s.led })

/-- `STARTUP` (R135): after its first strobe the display is held in reset; after its eighteen steps reset is released,
power is enabled, enable is low on address 3 with the data line high, and lines 5 to 7 and everything else are as they
were. -/
def Obligations.StartupSequenceTurnsTheDisplayOn : Prop :=
  ∀ s, ∃ t m u, exec .startup s = .next t ∧
    runUnder (fgTurns 5) t = .next m ∧ m.en = false ∧ m.line 1 = false ∧
    runUnder (fgTurns 17) t = .next u ∧
    u.en = false ∧ u.addr = 3#3 ∧ u.data = true ∧ u.settle = 0 ∧ u.line 0 = true ∧ u.line 1 = true ∧
    (∀ k : Fin 5, 2 ≤ k.val → u.line k = s.line k) ∧
    SameScanner s u ∧ SameSound s u ∧ SameOscillator s u ∧ SameOutside s u ∧ FgWentOn 18 s u

/-- `FGITER` (R137): its twenty-nine steps settle a line that was driven, scan and resolve the keys as they are, and
invert the LED; nothing else changes. -/
def Obligations.ForegroundIterationScansAndBlinks : Prop :=
  ∀ s, ∃ t u, exec .fgiter s = .next t ∧ runUnder (fgTurns 28) t = .next u ∧
    u.addr = 2#3 ∧ u.en = true ∧ u.settle.val = 3 ∧ u.data = s.data ∧
    (∀ k : Fin 5, u.line k = if s.en = true ∧ s.addr.toNat = 3 + k.val then s.data else s.line k) ∧
    (∀ i : Fin 12, u.km.getLsbD i.val = !s.held i) ∧ Resolved s.held u ∧
    u.led = !s.led ∧ u.armed = s.armed ∧ u.key = s.key ∧ SameOscillator s u ∧ FgWentOn 29 s u

/-- `KEYDN i` and `KEYUP i` (R144): the key is set or cleared and no other key and nothing else changes, so that on a
key that is so already nothing changes at all. -/
def Obligations.KeyEventsMoveOneKey : Prop :=
  ∀ (i : NoteField) (m : Fin 12) (v : Bool) (s : State), i.toNat = m.val →
    ∃ t, exec (if v then .keydn i else .keyup i) s = .next t ∧ t = { s with key := t.key } ∧
      (∀ j : Fin 12, t.held j = if j = m then v else s.held j) ∧ (s.held m = v → t = s)

/-- `RESET` (R175, R176): the elements the spec gives a value take it, the keys and the program stay, and FG is at the
first step of the program again. The elements the spec leaves unspecified are not spoken of. That the words still to
come that are not FG's keep their places is the model's reading (log 12). -/
def Obligations.ResetEventRestartsTheCore : Prop :=
  ∀ s, ∃ t, exec .reset s = .next t ∧ t.acc = 0#32 ∧ t.css = 0#32 ∧ t.armed = false ∧ t.note = none ∧ t.settle = 0 ∧
    t.key = s.key ∧ t.fgpc = 0 ∧ t.prog = s.prog ∧ t.loop = s.loop ∧ t.sched = s.sched ∧
    t.rest.filter (fun w => !isForeground w) = s.rest.filter (fun w => !isForeground w) ∧
    (PositionInStep s → streamSteps t.rest = streamSteps s.prog ∨
      streamSteps t.rest = streamSteps s.prog ++ streamSteps s.loop)

/-- The state right after reset (R176, R136): the values the spec gives, FG at the first atomic step of `STARTUP` of
the boot program `STARTUP; ARM; LOOP { FGITER }`. -/
def Obligations.ResetStateIsTheSpecs : Prop :=
  State.reset.acc = 0#32 ∧ State.reset.css = 0#32 ∧ State.reset.armed = false ∧ State.reset.note = none ∧
    State.reset.settle = 0 ∧ State.reset.fgpc = 0 ∧ State.reset.rest = [0x62#8, 0x1C#8] ∧
    State.reset.prog = [0x62#8, 0x1C#8] ∧ State.reset.loop = [0x63#8] ∧
    (streamSteps State.reset.rest).head? = (atomics .startup).head?

/-! ### Who writes what, and what a tick can see -/

/-- The table of R26: each element is changed only by the steps its row names. Composites are their atomic steps
(`CompositeStandsForItsSteps`), and reset gives every element its reset value. -/
def Obligations.StepsWriteOnlyTheirElements : Prop :=
  ∀ i s t, i.kind ≠ .composite → i ≠ .reset → exec i s = .next t →
    (t.addr = s.addr ∨ ∃ a, i = .adr a) ∧
    (t.en = s.en ∨ i = .enl ∨ i = .enh) ∧
    (t.data = s.data ∨ ∃ v, i = .dat v) ∧
    (t.settle = s.settle ∨ i ∈ [.enl, .enh, .dly2, .dly3, .wait100] ∨ (∃ a, i = .adr a) ∨ ∃ v, i = .dat v) ∧
    (t.outl = s.outl ∨ i ∈ [.enh, .dly2, .dly3, .wait100] ∨ (∃ a, i = .adr a) ∨ ∃ v, i = .dat v) ∧
    (t.km = s.km ∨ i = .kmnew ∨ ∃ r, i = .smp r) ∧
    (t.kp = s.kp ∨ i = .rsvb ∨ ∃ n, i = .rsvi n) ∧
    (t.css = s.css ∧ t.note = s.note ∨ i = .rsve ∨ ∃ n, i = .rsvi n) ∧
    (t.acc = s.acc ∧ t.audio = s.audio ∨ i = .tick) ∧
    (t.armed = s.armed ∨ i = .arm) ∧
    (t.led = s.led ∨ i = .ledt) ∧
    (t.key = s.key ∨ ∃ n, i = .keydn n ∨ i = .keyup n) ∧
    (t.fgpc = s.fgpc ∨ i.agent = .fg)

/-- A tick before a step and a tick after it come to the same, for every step that does not write the current step
size: the one shared word is all the two contexts share (R36, R38, R123, R161). -/
def Obligations.TickCommutesUnlessCssIsWritten : Prop :=
  ∀ i s t, s.armed = true → i ≠ .reset → i ≠ .rsve → (∀ n, i ≠ .rsvi n) → exec i s = .next t →
    ∃ s' t', exec .tick s = .next s' ∧ exec i s' = .next t' ∧ exec .tick t = .next t'

/-- The foreground resumes after a tick exactly where it was (R123, R155, R156). Two states that differ in the
accumulator, the output and the turns to come only, step, by the same turn, to two such states; a turn of the clock
changes nothing else; and so leaving the clock's turns out of a schedule changes nothing but those two registers. -/
def Obligations.TicksAreInvisibleToTheForeground : Prop :=
  (∀ (s t : State) a b u σ τ, step (s.under (u :: σ)) = .next t →
    ∃ a' b', step { s with acc := a, audio := b, sched := u :: τ } =
      .next { t with acc := a', audio := b', sched := τ }) ∧
  (∀ (s t : State) σ, step (s.under (.sc :: σ)) = .next t → t = { s with acc := t.acc, audio := t.audio, sched := σ }) ∧
  ∀ σ s u, runUnder σ s = .next u →
    ∃ v, runUnder (σ.filter (fun x => x != .sc)) s = .next v ∧ v = { u with acc := v.acc, audio := v.audio }

/-- A tick between two passes reads the step of the cell just taken (R89). -/
def Obligations.IntermediateStepSizeIsHeard : Prop :=
  ∀ (i : NoteField) (m : Fin 12) (s : State), i.toNat = m.val → s.km.getLsbD m.val = false → s.armed = true →
    ∃ t u, exec (.rsvi i) s = .next t ∧ exec .tick t = .next u ∧ u.acc = s.acc + Config.stepSize m

/-- During a resolution, wherever ticks fall, the shared word is the value before it, the step of a pressed cell, or
the final 0 where none is pressed: never anything in between (R39, R89). -/
def Obligations.ResolutionShowsOnlyWholeSteps : Prop :=
  ∀ s ws σ, s.rest = encode .resolve :: ws → OnlyTicks σ → σ.count .fg ≤ 14 →
    ∃ u, runUnder σ s = .next u ∧
      (u.css = s.css ∨ (∃ i, s.pressed i = true ∧ u.css = Config.stepSize i) ∨
        (u.css = 0#32 ∧ ∀ i, s.pressed i = false))

/-- `SCAN` with any number of ticks at any of its preemption points ends as it does without them (R51, R83, R122):
the matrix shows the keys, the highest held key sounds, and only the oscillator differs. -/
def Obligations.ScanUnderPreemption : Prop :=
  ∀ s ws σ, s.rest = encode .scan :: ws → OnlyTicks σ → σ.count .fg = 27 →
    ∃ u, runUnder σ s = .next u ∧
      u.addr = 2#3 ∧ u.en = true ∧ u.settle.val = 3 ∧ u.data = s.data ∧ u.outl = s.outl ∧
      (∀ i : Fin 12, u.km.getLsbD i.val = !s.held i) ∧ Resolved s.held u ∧ SameOutside s u ∧
      FgWentOn 27 (s.withRest ws) u

/-! ### Conditions every step keeps -/

/-- `NOTE` and `CSS` stay in step, in every state and by every step of every agent (R19, D7). -/
def Obligations.NoteStaysInStepWithCss : Prop := ∀ s t, NoteInStep s → step s = .next t → NoteInStep t

/-- A line driven for the settle time carries the data level, in every state and after every step (R14, R69). -/
def Obligations.DrivenLineStaysSettled : Prop := ∀ s t, LineSettled s → step s = .next t → LineSettled t

/-- `FGPC` stays the index of the step FG is at, in the list of atomic steps of its program: composites, listings with
event words, loops and resets included (R25, R45, R51). How the program is held is the model's (log 9). -/
def Obligations.PositionStaysInStep : Prop := ∀ s t, PositionInStep s → step s = .next t → PositionInStep t

/-- The three conditions hold right after reset. -/
def Obligations.ResetMeetsTheConditions : Prop :=
  NoteInStep State.reset ∧ LineSettled State.reset ∧ PositionInStep State.reset

/-! ### The boot program, under every schedule -/

/-- The hardware has no end of run (R136, R178): a program without end that holds FG's commands only goes on for ever,
from every state and by every turn, and stays such a program; the boot program is one, so from reset, whatever the
schedule of ticks, key events and resets, every step has a next state. -/
def Obligations.BootProgramNeverStops : Prop :=
  (∀ s, OwnCommands s → ∃ t, step s = .next t ∧ OwnCommands t) ∧ OwnCommands State.reset ∧
    ∀ σ, ∃ t, runUnder σ State.reset = .next t

/-- Every step of every agent keeps the boot program's state of the bus, of lines 3 and 4 and of the arming bit, step
for step (`AtBootStep`), and reset has it; so whenever the clock is armed the startup sequence has been completed: the
display's reset is released and its power enabled, and no scan has disturbed them (R135, R177). The levels are the
spec's decisions D12 and D13 (log 18). -/
def Obligations.BootKeepsDisplayOnWhileArmed : Prop :=
  (∀ s t, AtBootStep s → step s = .next t → AtBootStep t) ∧ AtBootStep State.reset ∧
    (∀ s, AtBootStep s → s.armed = true → DisplayOn s) ∧ ∀ t, Reachable t → t.armed = true → DisplayOn t

/-- At every step of the boot program, every turn but reset keeps lines 5 to 7, and from the second step on only the
addresses 0 to 4 are driven; so in every run from reset without another reset those lines stay at the reset draw
(R31, R176). -/
def Obligations.BootLeavesTheReservedLines : Prop :=
  (∀ s t, AtBootStep s → (∀ σ, s.sched ≠ .reset :: σ) → step s = .next t →
    ∀ k : Fin 5, 2 ≤ k.val → t.line k = s.line k) ∧
  (∀ s, AtBootStep s → 2 ≤ s.fgpc → s.addr.toNat ≤ 4) ∧
  ∀ σ t, Turn.reset ∉ σ → runUnder σ State.reset = .next t →
    (∀ k : Fin 5, 2 ≤ k.val → t.line k = State.reset.line k) ∧ (2 ≤ t.fgpc → t.addr.toNat ≤ 4)

/-- At every step of the boot program before the loop FG's turn goes on by one step, in the loop it stays in the loop,
every other turn but reset leaves FG where it is, and the clock is armed exactly from the loop on; so under every fair
schedule without resets the boot program arms the clock (R122, R136, R177). -/
def Obligations.BootArmsUnderEveryFairSchedule : Prop :=
  (∀ s t, AtBootStep s → step s = .next t →
    (s.sched = [] ∨ (∃ σ, s.sched = .fg :: σ) →
      (s.fgpc < 19 → t.fgpc = s.fgpc + 1) ∧ (19 ≤ s.fgpc → 19 ≤ t.fgpc)) ∧
    (∀ u σ, s.sched = u :: σ → u ≠ .fg → u ≠ .reset → t.fgpc = s.fgpc) ∧
    (t.armed = true ↔ 19 ≤ t.fgpc)) ∧
  ∀ σ : Nat → Turn, FairSchedule σ → (∀ n, σ n ≠ .reset) →
    ∃ n t, runUnder (turnsUpTo σ n) State.reset = .next t ∧ t.armed = true
end

