-- ==== Sys2Proof/Laws/Bits.lean ====
section
/-! SUPPORT. The bit update, the operand forms, and the oscillator's arithmetic, each with the one law its users cite. -/

namespace Sys2Proof.Machine

/-- A bit update writes its bit and leaves every other bit. -/
theorem getLsbD_writeBit {n : Nat} (v : BitVec n) (i j : Nat) (b : Bool) :
    (writeBit v i b).getLsbD j = if j = i ∧ i < n then b else v.getLsbD j := by
  unfold writeBit
  by_cases hj : j < n
  · cases b <;> by_cases hi : j = i
    · subst hi; simp [hj]
    · simp [hi, hj]
    · subst hi; simp [hj]
    · simp [hi, hj]
  · have hne : ¬(j = i ∧ i < n) := fun h => hj (h.1 ▸ h.2)
    rw [if_neg hne, BitVec.getLsbD_of_ge _ _ (by omega), BitVec.getLsbD_of_ge _ _ (by omega)]

theorem getLsbD_writeBit_same {n : Nat} (v : BitVec n) (i : Nat) (b : Bool) (h : i < n) :
    (writeBit v i b).getLsbD i = b := by rw [getLsbD_writeBit, if_pos ⟨rfl, h⟩]

theorem getLsbD_writeBit_other {n : Nat} (v : BitVec n) (i j : Nat) (b : Bool) (h : j ≠ i) :
    (writeBit v i b).getLsbD j = v.getLsbD j := by rw [getLsbD_writeBit, if_neg (fun hc => h hc.1)]

theorem rowOf_eq_some {r : BitVec 3} {q : Fin 3} : rowOf r = some q ↔ r.toNat = q.val := by
  unfold rowOf
  split
  · simp [Fin.ext_iff]
  · rename_i h
    constructor
    · simp
    · intro hq; omega

theorem noteOf_eq_some {i : NoteField} {m : Fin 12} : noteOf i = some m ↔ i.toNat = m.val := by
  unfold noteOf
  split
  · simp [Fin.ext_iff]
  · rename_i h
    constructor
    · simp
    · intro hq; omega

@[simp] theorem noteOf_noteField (i : Fin 12) : noteOf (noteField i) = some i := by
  rw [noteOf_eq_some, noteField, BitVec.toNat_ofNat]
  omega

/-- A well-formed row operand names a row. -/
theorem rowOf_of_legal {r : BitVec 3} (h : rowLegal r = true) : ∃ q, rowOf r = some q :=
  ⟨⟨r.toNat, by simpa [rowLegal] using h⟩, rowOf_eq_some.mpr rfl⟩

/-- A well-formed semitone operand names a note. -/
theorem noteOf_of_legal {i : NoteField} (h : noteLegal i = true) : ∃ m, noteOf i = some m :=
  ⟨⟨i.toNat, by simpa [noteLegal] using h⟩, noteOf_eq_some.mpr rfl⟩

theorem muxTarget_row {a : MuxAddr} {q : Fin 3} : muxTarget a = .row q ↔ a.toNat = q.val := by
  unfold muxTarget
  split
  · simp [Fin.ext_iff]
  · rename_i h
    constructor
    · simp
    · intro hq; omega

theorem muxTarget_line {a : MuxAddr} {k : Fin 5} : muxTarget a = .line k ↔ a.toNat = 3 + k.val := by
  unfold muxTarget
  split
  · rename_i h
    constructor
    · simp
    · intro hq; omega
  · rename_i h
    rw [MuxTarget.line.injEq, Fin.ext_iff]
    simp only
    omega

/-- The signed sample is the accumulator's top byte minus 128 (43_phase_accumulator_oscillator.md R106). -/
theorem toInt_sampleOf (acc : StepSize) : (sampleOf acc).toInt = ((topByte acc).toNat : Int) - 128 := by
  unfold sampleOf toS8
  generalize topByte acc = b
  revert b
  decide

/-- With `OUT_BITS` = 8 the output value is the accumulator's top byte (43_phase_accumulator_oscillator.md R107). -/
theorem emit_toS8 (b : BitVec 8) : emit (toS8 b) = b := by
  revert b
  decide

/-- The cell of a row and a column determines both. -/
theorem cellIndex_inj {r r' : Fin 3} {c c' : Fin 4} : cellIndex r c = cellIndex r' c' ↔ r = r' ∧ c = c' := by
  revert r r' c c'
  decide

/-- Every cell 0 to 11 is at some row and column (41_key_matrix_scanner.md R88). -/
theorem exists_cellIndex (i : Fin 12) : ∃ r c, cellIndex r c = i := by
  revert i
  decide

end Sys2Proof.Machine
end

