-- ==== Sys2Proof/Laws/State.lean ====
section
/-! SUPPORT. What each operation makes of each field of the state: one lemma a field, true by unfolding the record update. -/

namespace Sys2Proof.Machine

/-! ### under -/

@[simp] theorem under_addr (s : State) (σ : List Turn) : (s.under σ).addr = s.addr := rfl
@[simp] theorem under_en (s : State) (σ : List Turn) : (s.under σ).en = s.en := rfl
@[simp] theorem under_data (s : State) (σ : List Turn) : (s.under σ).data = s.data := rfl
@[simp] theorem under_settle (s : State) (σ : List Turn) : (s.under σ).settle = s.settle := rfl
@[simp] theorem under_outl (s : State) (σ : List Turn) : (s.under σ).outl = s.outl := rfl
@[simp] theorem under_km (s : State) (σ : List Turn) : (s.under σ).km = s.km := rfl
@[simp] theorem under_kp (s : State) (σ : List Turn) : (s.under σ).kp = s.kp := rfl
@[simp] theorem under_css (s : State) (σ : List Turn) : (s.under σ).css = s.css := rfl
@[simp] theorem under_note (s : State) (σ : List Turn) : (s.under σ).note = s.note := rfl
@[simp] theorem under_acc (s : State) (σ : List Turn) : (s.under σ).acc = s.acc := rfl
@[simp] theorem under_audio (s : State) (σ : List Turn) : (s.under σ).audio = s.audio := rfl
@[simp] theorem under_armed (s : State) (σ : List Turn) : (s.under σ).armed = s.armed := rfl
@[simp] theorem under_led (s : State) (σ : List Turn) : (s.under σ).led = s.led := rfl
@[simp] theorem under_key (s : State) (σ : List Turn) : (s.under σ).key = s.key := rfl
@[simp] theorem under_fgpc (s : State) (σ : List Turn) : (s.under σ).fgpc = s.fgpc := rfl
@[simp] theorem under_prog (s : State) (σ : List Turn) : (s.under σ).prog = s.prog := rfl
@[simp] theorem under_loop (s : State) (σ : List Turn) : (s.under σ).loop = s.loop := rfl
@[simp] theorem under_rest (s : State) (σ : List Turn) : (s.under σ).rest = s.rest := rfl
@[simp] theorem under_draws (s : State) (σ : List Turn) : (s.under σ).draws = s.draws := rfl
@[simp] theorem under_sched (s : State) (σ : List Turn) : (s.under σ).sched = σ := rfl

/-! ### withRest -/

@[simp] theorem withRest_addr (s : State) (ws : List CommandWord) : (s.withRest ws).addr = s.addr := rfl
@[simp] theorem withRest_en (s : State) (ws : List CommandWord) : (s.withRest ws).en = s.en := rfl
@[simp] theorem withRest_data (s : State) (ws : List CommandWord) : (s.withRest ws).data = s.data := rfl
@[simp] theorem withRest_settle (s : State) (ws : List CommandWord) : (s.withRest ws).settle = s.settle := rfl
@[simp] theorem withRest_outl (s : State) (ws : List CommandWord) : (s.withRest ws).outl = s.outl := rfl
@[simp] theorem withRest_km (s : State) (ws : List CommandWord) : (s.withRest ws).km = s.km := rfl
@[simp] theorem withRest_kp (s : State) (ws : List CommandWord) : (s.withRest ws).kp = s.kp := rfl
@[simp] theorem withRest_css (s : State) (ws : List CommandWord) : (s.withRest ws).css = s.css := rfl
@[simp] theorem withRest_note (s : State) (ws : List CommandWord) : (s.withRest ws).note = s.note := rfl
@[simp] theorem withRest_acc (s : State) (ws : List CommandWord) : (s.withRest ws).acc = s.acc := rfl
@[simp] theorem withRest_audio (s : State) (ws : List CommandWord) : (s.withRest ws).audio = s.audio := rfl
@[simp] theorem withRest_armed (s : State) (ws : List CommandWord) : (s.withRest ws).armed = s.armed := rfl
@[simp] theorem withRest_led (s : State) (ws : List CommandWord) : (s.withRest ws).led = s.led := rfl
@[simp] theorem withRest_key (s : State) (ws : List CommandWord) : (s.withRest ws).key = s.key := rfl
@[simp] theorem withRest_fgpc (s : State) (ws : List CommandWord) : (s.withRest ws).fgpc = s.fgpc := rfl
@[simp] theorem withRest_prog (s : State) (ws : List CommandWord) : (s.withRest ws).prog = s.prog := rfl
@[simp] theorem withRest_loop (s : State) (ws : List CommandWord) : (s.withRest ws).loop = s.loop := rfl
@[simp] theorem withRest_rest (s : State) (ws : List CommandWord) : (s.withRest ws).rest = ws := rfl
@[simp] theorem withRest_draws (s : State) (ws : List CommandWord) : (s.withRest ws).draws = s.draws := rfl
@[simp] theorem withRest_sched (s : State) (ws : List CommandWord) : (s.withRest ws).sched = s.sched := rfl

/-! ### busTouch -/

@[simp] theorem busTouch_addr (s : State) : (busTouch s).addr = s.addr := rfl
@[simp] theorem busTouch_en (s : State) : (busTouch s).en = s.en := rfl
@[simp] theorem busTouch_data (s : State) : (busTouch s).data = s.data := rfl
@[simp] theorem busTouch_settle (s : State) : (busTouch s).settle = 0 := rfl
@[simp] theorem busTouch_km (s : State) : (busTouch s).km = s.km := rfl
@[simp] theorem busTouch_kp (s : State) : (busTouch s).kp = s.kp := rfl
@[simp] theorem busTouch_css (s : State) : (busTouch s).css = s.css := rfl
@[simp] theorem busTouch_note (s : State) : (busTouch s).note = s.note := rfl
@[simp] theorem busTouch_acc (s : State) : (busTouch s).acc = s.acc := rfl
@[simp] theorem busTouch_audio (s : State) : (busTouch s).audio = s.audio := rfl
@[simp] theorem busTouch_armed (s : State) : (busTouch s).armed = s.armed := rfl
@[simp] theorem busTouch_led (s : State) : (busTouch s).led = s.led := rfl
@[simp] theorem busTouch_key (s : State) : (busTouch s).key = s.key := rfl
@[simp] theorem busTouch_fgpc (s : State) : (busTouch s).fgpc = s.fgpc := rfl
@[simp] theorem busTouch_prog (s : State) : (busTouch s).prog = s.prog := rfl
@[simp] theorem busTouch_loop (s : State) : (busTouch s).loop = s.loop := rfl
@[simp] theorem busTouch_rest (s : State) : (busTouch s).rest = s.rest := rfl
@[simp] theorem busTouch_sched (s : State) : (busTouch s).sched = s.sched := rfl

/-! ### driveEnable -/

@[simp] theorem driveEnable_addr (v : Bool) (s : State) : (driveEnable v s).addr = s.addr := rfl
@[simp] theorem driveEnable_en (v : Bool) (s : State) : (driveEnable v s).en = v := rfl
@[simp] theorem driveEnable_data (v : Bool) (s : State) : (driveEnable v s).data = s.data := rfl
@[simp] theorem driveEnable_settle (v : Bool) (s : State) : (driveEnable v s).settle = 0 := rfl
@[simp] theorem driveEnable_km (v : Bool) (s : State) : (driveEnable v s).km = s.km := rfl
@[simp] theorem driveEnable_kp (v : Bool) (s : State) : (driveEnable v s).kp = s.kp := rfl
@[simp] theorem driveEnable_css (v : Bool) (s : State) : (driveEnable v s).css = s.css := rfl
@[simp] theorem driveEnable_note (v : Bool) (s : State) : (driveEnable v s).note = s.note := rfl
@[simp] theorem driveEnable_acc (v : Bool) (s : State) : (driveEnable v s).acc = s.acc := rfl
@[simp] theorem driveEnable_audio (v : Bool) (s : State) : (driveEnable v s).audio = s.audio := rfl
@[simp] theorem driveEnable_armed (v : Bool) (s : State) : (driveEnable v s).armed = s.armed := rfl
@[simp] theorem driveEnable_led (v : Bool) (s : State) : (driveEnable v s).led = s.led := rfl
@[simp] theorem driveEnable_key (v : Bool) (s : State) : (driveEnable v s).key = s.key := rfl
@[simp] theorem driveEnable_fgpc (v : Bool) (s : State) : (driveEnable v s).fgpc = s.fgpc := rfl
@[simp] theorem driveEnable_prog (v : Bool) (s : State) : (driveEnable v s).prog = s.prog := rfl
@[simp] theorem driveEnable_loop (v : Bool) (s : State) : (driveEnable v s).loop = s.loop := rfl
@[simp] theorem driveEnable_rest (v : Bool) (s : State) : (driveEnable v s).rest = s.rest := rfl
@[simp] theorem driveEnable_sched (v : Bool) (s : State) : (driveEnable v s).sched = s.sched := rfl

/-! ### driveAddress -/

@[simp] theorem driveAddress_addr (a : MuxAddr) (s : State) : (driveAddress a s).addr = a := rfl
@[simp] theorem driveAddress_en (a : MuxAddr) (s : State) : (driveAddress a s).en = s.en := rfl
@[simp] theorem driveAddress_data (a : MuxAddr) (s : State) : (driveAddress a s).data = s.data := rfl
@[simp] theorem driveAddress_settle (a : MuxAddr) (s : State) : (driveAddress a s).settle = 0 := rfl
@[simp] theorem driveAddress_km (a : MuxAddr) (s : State) : (driveAddress a s).km = s.km := rfl
@[simp] theorem driveAddress_kp (a : MuxAddr) (s : State) : (driveAddress a s).kp = s.kp := rfl
@[simp] theorem driveAddress_css (a : MuxAddr) (s : State) : (driveAddress a s).css = s.css := rfl
@[simp] theorem driveAddress_note (a : MuxAddr) (s : State) : (driveAddress a s).note = s.note := rfl
@[simp] theorem driveAddress_acc (a : MuxAddr) (s : State) : (driveAddress a s).acc = s.acc := rfl
@[simp] theorem driveAddress_audio (a : MuxAddr) (s : State) : (driveAddress a s).audio = s.audio := rfl
@[simp] theorem driveAddress_armed (a : MuxAddr) (s : State) : (driveAddress a s).armed = s.armed := rfl
@[simp] theorem driveAddress_led (a : MuxAddr) (s : State) : (driveAddress a s).led = s.led := rfl
@[simp] theorem driveAddress_key (a : MuxAddr) (s : State) : (driveAddress a s).key = s.key := rfl
@[simp] theorem driveAddress_fgpc (a : MuxAddr) (s : State) : (driveAddress a s).fgpc = s.fgpc := rfl
@[simp] theorem driveAddress_prog (a : MuxAddr) (s : State) : (driveAddress a s).prog = s.prog := rfl
@[simp] theorem driveAddress_loop (a : MuxAddr) (s : State) : (driveAddress a s).loop = s.loop := rfl
@[simp] theorem driveAddress_rest (a : MuxAddr) (s : State) : (driveAddress a s).rest = s.rest := rfl
@[simp] theorem driveAddress_sched (a : MuxAddr) (s : State) : (driveAddress a s).sched = s.sched := rfl

/-! ### driveData -/

@[simp] theorem driveData_addr (v : Bool) (s : State) : (driveData v s).addr = s.addr := rfl
@[simp] theorem driveData_en (v : Bool) (s : State) : (driveData v s).en = s.en := rfl
@[simp] theorem driveData_data (v : Bool) (s : State) : (driveData v s).data = v := rfl
@[simp] theorem driveData_settle (v : Bool) (s : State) : (driveData v s).settle = 0 := rfl
@[simp] theorem driveData_km (v : Bool) (s : State) : (driveData v s).km = s.km := rfl
@[simp] theorem driveData_kp (v : Bool) (s : State) : (driveData v s).kp = s.kp := rfl
@[simp] theorem driveData_css (v : Bool) (s : State) : (driveData v s).css = s.css := rfl
@[simp] theorem driveData_note (v : Bool) (s : State) : (driveData v s).note = s.note := rfl
@[simp] theorem driveData_acc (v : Bool) (s : State) : (driveData v s).acc = s.acc := rfl
@[simp] theorem driveData_audio (v : Bool) (s : State) : (driveData v s).audio = s.audio := rfl
@[simp] theorem driveData_armed (v : Bool) (s : State) : (driveData v s).armed = s.armed := rfl
@[simp] theorem driveData_led (v : Bool) (s : State) : (driveData v s).led = s.led := rfl
@[simp] theorem driveData_key (v : Bool) (s : State) : (driveData v s).key = s.key := rfl
@[simp] theorem driveData_fgpc (v : Bool) (s : State) : (driveData v s).fgpc = s.fgpc := rfl
@[simp] theorem driveData_prog (v : Bool) (s : State) : (driveData v s).prog = s.prog := rfl
@[simp] theorem driveData_loop (v : Bool) (s : State) : (driveData v s).loop = s.loop := rfl
@[simp] theorem driveData_rest (v : Bool) (s : State) : (driveData v s).rest = s.rest := rfl
@[simp] theorem driveData_sched (v : Bool) (s : State) : (driveData v s).sched = s.sched := rfl

/-! ### elapse -/

@[simp] theorem elapse_addr (n : Nat) (s : State) : (elapse n s).addr = s.addr := rfl
@[simp] theorem elapse_en (n : Nat) (s : State) : (elapse n s).en = s.en := rfl
@[simp] theorem elapse_data (n : Nat) (s : State) : (elapse n s).data = s.data := rfl
@[simp] theorem elapse_settle (n : Nat) (s : State) : (elapse n s).settle = settleAfter s.settle n := rfl
@[simp] theorem elapse_km (n : Nat) (s : State) : (elapse n s).km = s.km := rfl
@[simp] theorem elapse_kp (n : Nat) (s : State) : (elapse n s).kp = s.kp := rfl
@[simp] theorem elapse_css (n : Nat) (s : State) : (elapse n s).css = s.css := rfl
@[simp] theorem elapse_note (n : Nat) (s : State) : (elapse n s).note = s.note := rfl
@[simp] theorem elapse_acc (n : Nat) (s : State) : (elapse n s).acc = s.acc := rfl
@[simp] theorem elapse_audio (n : Nat) (s : State) : (elapse n s).audio = s.audio := rfl
@[simp] theorem elapse_armed (n : Nat) (s : State) : (elapse n s).armed = s.armed := rfl
@[simp] theorem elapse_led (n : Nat) (s : State) : (elapse n s).led = s.led := rfl
@[simp] theorem elapse_key (n : Nat) (s : State) : (elapse n s).key = s.key := rfl
@[simp] theorem elapse_fgpc (n : Nat) (s : State) : (elapse n s).fgpc = s.fgpc := rfl
@[simp] theorem elapse_prog (n : Nat) (s : State) : (elapse n s).prog = s.prog := rfl
@[simp] theorem elapse_loop (n : Nat) (s : State) : (elapse n s).loop = s.loop := rfl
@[simp] theorem elapse_rest (n : Nat) (s : State) : (elapse n s).rest = s.rest := rfl
@[simp] theorem elapse_draws (n : Nat) (s : State) : (elapse n s).draws = s.draws := rfl
@[simp] theorem elapse_sched (n : Nat) (s : State) : (elapse n s).sched = s.sched := rfl

/-! ### recreateMatrix -/

@[simp] theorem recreateMatrix_addr (s : State) : (recreateMatrix s).addr = s.addr := rfl
@[simp] theorem recreateMatrix_en (s : State) : (recreateMatrix s).en = s.en := rfl
@[simp] theorem recreateMatrix_data (s : State) : (recreateMatrix s).data = s.data := rfl
@[simp] theorem recreateMatrix_settle (s : State) : (recreateMatrix s).settle = s.settle := rfl
@[simp] theorem recreateMatrix_outl (s : State) : (recreateMatrix s).outl = s.outl := rfl
@[simp] theorem recreateMatrix_km (s : State) : (recreateMatrix s).km = Config.any 32 s.draws := rfl
@[simp] theorem recreateMatrix_kp (s : State) : (recreateMatrix s).kp = s.kp := rfl
@[simp] theorem recreateMatrix_css (s : State) : (recreateMatrix s).css = s.css := rfl
@[simp] theorem recreateMatrix_note (s : State) : (recreateMatrix s).note = s.note := rfl
@[simp] theorem recreateMatrix_acc (s : State) : (recreateMatrix s).acc = s.acc := rfl
@[simp] theorem recreateMatrix_audio (s : State) : (recreateMatrix s).audio = s.audio := rfl
@[simp] theorem recreateMatrix_armed (s : State) : (recreateMatrix s).armed = s.armed := rfl
@[simp] theorem recreateMatrix_led (s : State) : (recreateMatrix s).led = s.led := rfl
@[simp] theorem recreateMatrix_key (s : State) : (recreateMatrix s).key = s.key := rfl
@[simp] theorem recreateMatrix_fgpc (s : State) : (recreateMatrix s).fgpc = s.fgpc := rfl
@[simp] theorem recreateMatrix_prog (s : State) : (recreateMatrix s).prog = s.prog := rfl
@[simp] theorem recreateMatrix_loop (s : State) : (recreateMatrix s).loop = s.loop := rfl
@[simp] theorem recreateMatrix_rest (s : State) : (recreateMatrix s).rest = s.rest := rfl
@[simp] theorem recreateMatrix_draws (s : State) : (recreateMatrix s).draws = s.draws + 1 := rfl
@[simp] theorem recreateMatrix_sched (s : State) : (recreateMatrix s).sched = s.sched := rfl

/-! ### sampleRow -/

@[simp] theorem sampleRow_addr (r : Fin 3) (s : State) : (sampleRow r s).addr = s.addr := rfl
@[simp] theorem sampleRow_en (r : Fin 3) (s : State) : (sampleRow r s).en = s.en := rfl
@[simp] theorem sampleRow_data (r : Fin 3) (s : State) : (sampleRow r s).data = s.data := rfl
@[simp] theorem sampleRow_settle (r : Fin 3) (s : State) : (sampleRow r s).settle = s.settle := rfl
@[simp] theorem sampleRow_outl (r : Fin 3) (s : State) : (sampleRow r s).outl = s.outl := rfl
@[simp] theorem sampleRow_km (r : Fin 3) (s : State) : (sampleRow r s).km = writeRow s.km r (column s) := rfl
@[simp] theorem sampleRow_kp (r : Fin 3) (s : State) : (sampleRow r s).kp = s.kp := rfl
@[simp] theorem sampleRow_css (r : Fin 3) (s : State) : (sampleRow r s).css = s.css := rfl
@[simp] theorem sampleRow_note (r : Fin 3) (s : State) : (sampleRow r s).note = s.note := rfl
@[simp] theorem sampleRow_acc (r : Fin 3) (s : State) : (sampleRow r s).acc = s.acc := rfl
@[simp] theorem sampleRow_audio (r : Fin 3) (s : State) : (sampleRow r s).audio = s.audio := rfl
@[simp] theorem sampleRow_armed (r : Fin 3) (s : State) : (sampleRow r s).armed = s.armed := rfl
@[simp] theorem sampleRow_led (r : Fin 3) (s : State) : (sampleRow r s).led = s.led := rfl
@[simp] theorem sampleRow_key (r : Fin 3) (s : State) : (sampleRow r s).key = s.key := rfl
@[simp] theorem sampleRow_fgpc (r : Fin 3) (s : State) : (sampleRow r s).fgpc = s.fgpc := rfl
@[simp] theorem sampleRow_prog (r : Fin 3) (s : State) : (sampleRow r s).prog = s.prog := rfl
@[simp] theorem sampleRow_loop (r : Fin 3) (s : State) : (sampleRow r s).loop = s.loop := rfl
@[simp] theorem sampleRow_rest (r : Fin 3) (s : State) : (sampleRow r s).rest = s.rest := rfl
@[simp] theorem sampleRow_sched (r : Fin 3) (s : State) : (sampleRow r s).sched = s.sched := rfl

/-! ### beginResolution -/

@[simp] theorem beginResolution_addr (s : State) : (beginResolution s).addr = s.addr := rfl
@[simp] theorem beginResolution_en (s : State) : (beginResolution s).en = s.en := rfl
@[simp] theorem beginResolution_data (s : State) : (beginResolution s).data = s.data := rfl
@[simp] theorem beginResolution_settle (s : State) : (beginResolution s).settle = s.settle := rfl
@[simp] theorem beginResolution_outl (s : State) : (beginResolution s).outl = s.outl := rfl
@[simp] theorem beginResolution_km (s : State) : (beginResolution s).km = s.km := rfl
@[simp] theorem beginResolution_kp (s : State) : (beginResolution s).kp = false := rfl
@[simp] theorem beginResolution_css (s : State) : (beginResolution s).css = s.css := rfl
@[simp] theorem beginResolution_note (s : State) : (beginResolution s).note = s.note := rfl
@[simp] theorem beginResolution_acc (s : State) : (beginResolution s).acc = s.acc := rfl
@[simp] theorem beginResolution_audio (s : State) : (beginResolution s).audio = s.audio := rfl
@[simp] theorem beginResolution_armed (s : State) : (beginResolution s).armed = s.armed := rfl
@[simp] theorem beginResolution_led (s : State) : (beginResolution s).led = s.led := rfl
@[simp] theorem beginResolution_key (s : State) : (beginResolution s).key = s.key := rfl
@[simp] theorem beginResolution_fgpc (s : State) : (beginResolution s).fgpc = s.fgpc := rfl
@[simp] theorem beginResolution_prog (s : State) : (beginResolution s).prog = s.prog := rfl
@[simp] theorem beginResolution_loop (s : State) : (beginResolution s).loop = s.loop := rfl
@[simp] theorem beginResolution_rest (s : State) : (beginResolution s).rest = s.rest := rfl
@[simp] theorem beginResolution_draws (s : State) : (beginResolution s).draws = s.draws := rfl
@[simp] theorem beginResolution_sched (s : State) : (beginResolution s).sched = s.sched := rfl

/-! ### resolvePass -/

@[simp] theorem resolvePass_addr (i : Fin 12) (s : State) : (resolvePass i s).addr = s.addr := rfl
@[simp] theorem resolvePass_en (i : Fin 12) (s : State) : (resolvePass i s).en = s.en := rfl
@[simp] theorem resolvePass_data (i : Fin 12) (s : State) : (resolvePass i s).data = s.data := rfl
@[simp] theorem resolvePass_settle (i : Fin 12) (s : State) : (resolvePass i s).settle = s.settle := rfl
@[simp] theorem resolvePass_outl (i : Fin 12) (s : State) : (resolvePass i s).outl = s.outl := rfl
@[simp] theorem resolvePass_km (i : Fin 12) (s : State) : (resolvePass i s).km = s.km := rfl
@[simp] theorem resolvePass_kp (i : Fin 12) (s : State) : (resolvePass i s).kp = (s.kp || s.pressed i) := rfl
@[simp] theorem resolvePass_css (i : Fin 12) (s : State) : (resolvePass i s).css = if s.pressed i then Config.stepSize i else s.css := rfl
@[simp] theorem resolvePass_note (i : Fin 12) (s : State) : (resolvePass i s).note = if s.pressed i then some i else s.note := rfl
@[simp] theorem resolvePass_acc (i : Fin 12) (s : State) : (resolvePass i s).acc = s.acc := rfl
@[simp] theorem resolvePass_audio (i : Fin 12) (s : State) : (resolvePass i s).audio = s.audio := rfl
@[simp] theorem resolvePass_armed (i : Fin 12) (s : State) : (resolvePass i s).armed = s.armed := rfl
@[simp] theorem resolvePass_led (i : Fin 12) (s : State) : (resolvePass i s).led = s.led := rfl
@[simp] theorem resolvePass_key (i : Fin 12) (s : State) : (resolvePass i s).key = s.key := rfl
@[simp] theorem resolvePass_fgpc (i : Fin 12) (s : State) : (resolvePass i s).fgpc = s.fgpc := rfl
@[simp] theorem resolvePass_prog (i : Fin 12) (s : State) : (resolvePass i s).prog = s.prog := rfl
@[simp] theorem resolvePass_loop (i : Fin 12) (s : State) : (resolvePass i s).loop = s.loop := rfl
@[simp] theorem resolvePass_rest (i : Fin 12) (s : State) : (resolvePass i s).rest = s.rest := rfl
@[simp] theorem resolvePass_draws (i : Fin 12) (s : State) : (resolvePass i s).draws = s.draws := rfl
@[simp] theorem resolvePass_sched (i : Fin 12) (s : State) : (resolvePass i s).sched = s.sched := rfl

/-! ### endResolution -/

@[simp] theorem endResolution_addr (s : State) : (endResolution s).addr = s.addr := rfl
@[simp] theorem endResolution_en (s : State) : (endResolution s).en = s.en := rfl
@[simp] theorem endResolution_data (s : State) : (endResolution s).data = s.data := rfl
@[simp] theorem endResolution_settle (s : State) : (endResolution s).settle = s.settle := rfl
@[simp] theorem endResolution_outl (s : State) : (endResolution s).outl = s.outl := rfl
@[simp] theorem endResolution_km (s : State) : (endResolution s).km = s.km := rfl
@[simp] theorem endResolution_kp (s : State) : (endResolution s).kp = s.kp := rfl
@[simp] theorem endResolution_css (s : State) : (endResolution s).css = if kpNone s.kp then 0#32 else s.css := rfl
@[simp] theorem endResolution_note (s : State) : (endResolution s).note = if kpNone s.kp then none else s.note := rfl
@[simp] theorem endResolution_acc (s : State) : (endResolution s).acc = s.acc := rfl
@[simp] theorem endResolution_audio (s : State) : (endResolution s).audio = s.audio := rfl
@[simp] theorem endResolution_armed (s : State) : (endResolution s).armed = s.armed := rfl
@[simp] theorem endResolution_led (s : State) : (endResolution s).led = s.led := rfl
@[simp] theorem endResolution_key (s : State) : (endResolution s).key = s.key := rfl
@[simp] theorem endResolution_fgpc (s : State) : (endResolution s).fgpc = s.fgpc := rfl
@[simp] theorem endResolution_prog (s : State) : (endResolution s).prog = s.prog := rfl
@[simp] theorem endResolution_loop (s : State) : (endResolution s).loop = s.loop := rfl
@[simp] theorem endResolution_rest (s : State) : (endResolution s).rest = s.rest := rfl
@[simp] theorem endResolution_draws (s : State) : (endResolution s).draws = s.draws := rfl
@[simp] theorem endResolution_sched (s : State) : (endResolution s).sched = s.sched := rfl

/-! ### takeTick -/

@[simp] theorem takeTick_addr (s : State) : (takeTick s).addr = s.addr := rfl
@[simp] theorem takeTick_en (s : State) : (takeTick s).en = s.en := rfl
@[simp] theorem takeTick_data (s : State) : (takeTick s).data = s.data := rfl
@[simp] theorem takeTick_settle (s : State) : (takeTick s).settle = s.settle := rfl
@[simp] theorem takeTick_outl (s : State) : (takeTick s).outl = s.outl := rfl
@[simp] theorem takeTick_km (s : State) : (takeTick s).km = s.km := rfl
@[simp] theorem takeTick_kp (s : State) : (takeTick s).kp = s.kp := rfl
@[simp] theorem takeTick_css (s : State) : (takeTick s).css = s.css := rfl
@[simp] theorem takeTick_note (s : State) : (takeTick s).note = s.note := rfl
@[simp] theorem takeTick_acc (s : State) : (takeTick s).acc = s.acc + s.css := rfl
@[simp] theorem takeTick_armed (s : State) : (takeTick s).armed = s.armed := rfl
@[simp] theorem takeTick_led (s : State) : (takeTick s).led = s.led := rfl
@[simp] theorem takeTick_key (s : State) : (takeTick s).key = s.key := rfl
@[simp] theorem takeTick_fgpc (s : State) : (takeTick s).fgpc = s.fgpc := rfl
@[simp] theorem takeTick_prog (s : State) : (takeTick s).prog = s.prog := rfl
@[simp] theorem takeTick_loop (s : State) : (takeTick s).loop = s.loop := rfl
@[simp] theorem takeTick_rest (s : State) : (takeTick s).rest = s.rest := rfl
@[simp] theorem takeTick_draws (s : State) : (takeTick s).draws = s.draws := rfl
@[simp] theorem takeTick_sched (s : State) : (takeTick s).sched = s.sched := rfl

/-! ### setKey -/

@[simp] theorem setKey_addr (i : Fin 12) (v : Bool) (s : State) : (setKey i v s).addr = s.addr := rfl
@[simp] theorem setKey_en (i : Fin 12) (v : Bool) (s : State) : (setKey i v s).en = s.en := rfl
@[simp] theorem setKey_data (i : Fin 12) (v : Bool) (s : State) : (setKey i v s).data = s.data := rfl
@[simp] theorem setKey_settle (i : Fin 12) (v : Bool) (s : State) : (setKey i v s).settle = s.settle := rfl
@[simp] theorem setKey_outl (i : Fin 12) (v : Bool) (s : State) : (setKey i v s).outl = s.outl := rfl
@[simp] theorem setKey_km (i : Fin 12) (v : Bool) (s : State) : (setKey i v s).km = s.km := rfl
@[simp] theorem setKey_kp (i : Fin 12) (v : Bool) (s : State) : (setKey i v s).kp = s.kp := rfl
@[simp] theorem setKey_css (i : Fin 12) (v : Bool) (s : State) : (setKey i v s).css = s.css := rfl
@[simp] theorem setKey_note (i : Fin 12) (v : Bool) (s : State) : (setKey i v s).note = s.note := rfl
@[simp] theorem setKey_acc (i : Fin 12) (v : Bool) (s : State) : (setKey i v s).acc = s.acc := rfl
@[simp] theorem setKey_audio (i : Fin 12) (v : Bool) (s : State) : (setKey i v s).audio = s.audio := rfl
@[simp] theorem setKey_armed (i : Fin 12) (v : Bool) (s : State) : (setKey i v s).armed = s.armed := rfl
@[simp] theorem setKey_led (i : Fin 12) (v : Bool) (s : State) : (setKey i v s).led = s.led := rfl
@[simp] theorem setKey_key (i : Fin 12) (v : Bool) (s : State) : (setKey i v s).key = writeBit s.key i.val v := rfl
@[simp] theorem setKey_fgpc (i : Fin 12) (v : Bool) (s : State) : (setKey i v s).fgpc = s.fgpc := rfl
@[simp] theorem setKey_prog (i : Fin 12) (v : Bool) (s : State) : (setKey i v s).prog = s.prog := rfl
@[simp] theorem setKey_loop (i : Fin 12) (v : Bool) (s : State) : (setKey i v s).loop = s.loop := rfl
@[simp] theorem setKey_rest (i : Fin 12) (v : Bool) (s : State) : (setKey i v s).rest = s.rest := rfl
@[simp] theorem setKey_draws (i : Fin 12) (v : Bool) (s : State) : (setKey i v s).draws = s.draws := rfl
@[simp] theorem setKey_sched (i : Fin 12) (v : Bool) (s : State) : (setKey i v s).sched = s.sched := rfl

/-! ### pushSteps -/

@[simp] theorem pushSteps_addr (is : List Instr) (s : State) : (pushSteps is s).addr = s.addr := rfl
@[simp] theorem pushSteps_en (is : List Instr) (s : State) : (pushSteps is s).en = s.en := rfl
@[simp] theorem pushSteps_data (is : List Instr) (s : State) : (pushSteps is s).data = s.data := rfl
@[simp] theorem pushSteps_settle (is : List Instr) (s : State) : (pushSteps is s).settle = s.settle := rfl
@[simp] theorem pushSteps_outl (is : List Instr) (s : State) : (pushSteps is s).outl = s.outl := rfl
@[simp] theorem pushSteps_km (is : List Instr) (s : State) : (pushSteps is s).km = s.km := rfl
@[simp] theorem pushSteps_kp (is : List Instr) (s : State) : (pushSteps is s).kp = s.kp := rfl
@[simp] theorem pushSteps_css (is : List Instr) (s : State) : (pushSteps is s).css = s.css := rfl
@[simp] theorem pushSteps_note (is : List Instr) (s : State) : (pushSteps is s).note = s.note := rfl
@[simp] theorem pushSteps_acc (is : List Instr) (s : State) : (pushSteps is s).acc = s.acc := rfl
@[simp] theorem pushSteps_audio (is : List Instr) (s : State) : (pushSteps is s).audio = s.audio := rfl
@[simp] theorem pushSteps_armed (is : List Instr) (s : State) : (pushSteps is s).armed = s.armed := rfl
@[simp] theorem pushSteps_led (is : List Instr) (s : State) : (pushSteps is s).led = s.led := rfl
@[simp] theorem pushSteps_key (is : List Instr) (s : State) : (pushSteps is s).key = s.key := rfl
@[simp] theorem pushSteps_fgpc (is : List Instr) (s : State) : (pushSteps is s).fgpc = s.fgpc := rfl
@[simp] theorem pushSteps_prog (is : List Instr) (s : State) : (pushSteps is s).prog = s.prog := rfl
@[simp] theorem pushSteps_loop (is : List Instr) (s : State) : (pushSteps is s).loop = s.loop := rfl
@[simp] theorem pushSteps_rest (is : List Instr) (s : State) : (pushSteps is s).rest = is.map encode ++ s.rest := rfl
@[simp] theorem pushSteps_draws (is : List Instr) (s : State) : (pushSteps is s).draws = s.draws := rfl
@[simp] theorem pushSteps_sched (is : List Instr) (s : State) : (pushSteps is s).sched = s.sched := rfl

/-! ### refill -/

@[simp] theorem refill_addr (s : State) : (refill s).addr = s.addr := rfl
@[simp] theorem refill_en (s : State) : (refill s).en = s.en := rfl
@[simp] theorem refill_data (s : State) : (refill s).data = s.data := rfl
@[simp] theorem refill_settle (s : State) : (refill s).settle = s.settle := rfl
@[simp] theorem refill_outl (s : State) : (refill s).outl = s.outl := rfl
@[simp] theorem refill_km (s : State) : (refill s).km = s.km := rfl
@[simp] theorem refill_kp (s : State) : (refill s).kp = s.kp := rfl
@[simp] theorem refill_css (s : State) : (refill s).css = s.css := rfl
@[simp] theorem refill_note (s : State) : (refill s).note = s.note := rfl
@[simp] theorem refill_acc (s : State) : (refill s).acc = s.acc := rfl
@[simp] theorem refill_audio (s : State) : (refill s).audio = s.audio := rfl
@[simp] theorem refill_armed (s : State) : (refill s).armed = s.armed := rfl
@[simp] theorem refill_led (s : State) : (refill s).led = s.led := rfl
@[simp] theorem refill_key (s : State) : (refill s).key = s.key := rfl
@[simp] theorem refill_prog (s : State) : (refill s).prog = s.prog := rfl
@[simp] theorem refill_loop (s : State) : (refill s).loop = s.loop := rfl
@[simp] theorem refill_draws (s : State) : (refill s).draws = s.draws := rfl
@[simp] theorem refill_sched (s : State) : (refill s).sched = s.sched := rfl

/-! ### advanceFg -/

@[simp] theorem advanceFg_addr (s : State) : (advanceFg s).addr = s.addr := rfl
@[simp] theorem advanceFg_en (s : State) : (advanceFg s).en = s.en := rfl
@[simp] theorem advanceFg_data (s : State) : (advanceFg s).data = s.data := rfl
@[simp] theorem advanceFg_settle (s : State) : (advanceFg s).settle = s.settle := rfl
@[simp] theorem advanceFg_outl (s : State) : (advanceFg s).outl = s.outl := rfl
@[simp] theorem advanceFg_km (s : State) : (advanceFg s).km = s.km := rfl
@[simp] theorem advanceFg_kp (s : State) : (advanceFg s).kp = s.kp := rfl
@[simp] theorem advanceFg_css (s : State) : (advanceFg s).css = s.css := rfl
@[simp] theorem advanceFg_note (s : State) : (advanceFg s).note = s.note := rfl
@[simp] theorem advanceFg_acc (s : State) : (advanceFg s).acc = s.acc := rfl
@[simp] theorem advanceFg_audio (s : State) : (advanceFg s).audio = s.audio := rfl
@[simp] theorem advanceFg_armed (s : State) : (advanceFg s).armed = s.armed := rfl
@[simp] theorem advanceFg_led (s : State) : (advanceFg s).led = s.led := rfl
@[simp] theorem advanceFg_key (s : State) : (advanceFg s).key = s.key := rfl
@[simp] theorem advanceFg_prog (s : State) : (advanceFg s).prog = s.prog := rfl
@[simp] theorem advanceFg_loop (s : State) : (advanceFg s).loop = s.loop := rfl
@[simp] theorem advanceFg_draws (s : State) : (advanceFg s).draws = s.draws := rfl
@[simp] theorem advanceFg_sched (s : State) : (advanceFg s).sched = s.sched := rfl
@[simp] theorem advanceFg_rest (s : State) : (advanceFg s).rest = s.rest := rfl

/-! ### applyReset -/

@[simp] theorem applyReset_key (s : State) : (applyReset s).key = s.key := rfl
@[simp] theorem applyReset_prog (s : State) : (applyReset s).prog = s.prog := rfl
@[simp] theorem applyReset_loop (s : State) : (applyReset s).loop = s.loop := rfl
@[simp] theorem applyReset_sched (s : State) : (applyReset s).sched = s.sched := rfl
@[simp] theorem applyReset_fgpc (s : State) : (applyReset s).fgpc = 0 := rfl
@[simp] theorem applyReset_rest (s : State) : (applyReset s).rest = rewound s := rfl
@[simp] theorem applyReset_acc (s : State) : (applyReset s).acc = 0#32 := rfl
@[simp] theorem applyReset_css (s : State) : (applyReset s).css = 0#32 := rfl
@[simp] theorem applyReset_armed (s : State) : (applyReset s).armed = false := rfl
@[simp] theorem applyReset_note (s : State) : (applyReset s).note = none := rfl
@[simp] theorem applyReset_settle (s : State) : (applyReset s).settle = 0 := rfl
@[simp] theorem applyReset_draws (s : State) : (applyReset s).draws = s.draws + 8 := rfl

/-! ### presentWord -/

@[simp] theorem presentWord_addr (w : CommandWord) (s : State) : (presentWord w s).addr = s.addr := rfl
@[simp] theorem presentWord_en (w : CommandWord) (s : State) : (presentWord w s).en = s.en := rfl
@[simp] theorem presentWord_data (w : CommandWord) (s : State) : (presentWord w s).data = s.data := rfl
@[simp] theorem presentWord_settle (w : CommandWord) (s : State) : (presentWord w s).settle = s.settle := rfl
@[simp] theorem presentWord_outl (w : CommandWord) (s : State) : (presentWord w s).outl = s.outl := rfl
@[simp] theorem presentWord_km (w : CommandWord) (s : State) : (presentWord w s).km = s.km := rfl
@[simp] theorem presentWord_kp (w : CommandWord) (s : State) : (presentWord w s).kp = s.kp := rfl
@[simp] theorem presentWord_css (w : CommandWord) (s : State) : (presentWord w s).css = s.css := rfl
@[simp] theorem presentWord_note (w : CommandWord) (s : State) : (presentWord w s).note = s.note := rfl
@[simp] theorem presentWord_acc (w : CommandWord) (s : State) : (presentWord w s).acc = s.acc := rfl
@[simp] theorem presentWord_audio (w : CommandWord) (s : State) : (presentWord w s).audio = s.audio := rfl
@[simp] theorem presentWord_armed (w : CommandWord) (s : State) : (presentWord w s).armed = (s.armed || w == encode .tick) := rfl
@[simp] theorem presentWord_led (w : CommandWord) (s : State) : (presentWord w s).led = s.led := rfl
@[simp] theorem presentWord_key (w : CommandWord) (s : State) : (presentWord w s).key = s.key := rfl
@[simp] theorem presentWord_fgpc (w : CommandWord) (s : State) : (presentWord w s).fgpc = 0 := rfl
@[simp] theorem presentWord_prog (w : CommandWord) (s : State) : (presentWord w s).prog = [w] := rfl
@[simp] theorem presentWord_loop (w : CommandWord) (s : State) : (presentWord w s).loop = [] := rfl
@[simp] theorem presentWord_rest (w : CommandWord) (s : State) : (presentWord w s).rest = [w] := rfl
@[simp] theorem presentWord_draws (w : CommandWord) (s : State) : (presentWord w s).draws = s.draws := rfl
@[simp] theorem presentWord_sched (w : CommandWord) (s : State) : (presentWord w s).sched = .fg :: s.sched := rfl

end Sys2Proof.Machine
end

