-- ==== Sys2Proof/Laws/Ops.lean ====
section
/-! SUPPORT. One law for each shared operation: everything it can do, for its users to cite. -/

namespace Sys2Proof.Machine

/-! ### The bus -/

theorem drivenLine_eq_some {s : State} {k : Fin 5} :
    drivenLine s = some k ↔ s.en = true ∧ s.addr.toNat = 3 + k.val := by
  unfold drivenLine
  cases hm : muxTarget s.addr with
  | row q =>
    have := muxTarget_row.mp hm
    constructor
    · intro h; split at h <;> simp at h
    · intro h; omega
  | line j =>
    have := muxTarget_line.mp hm
    cases s.en <;> simp [Fin.ext_iff]
    omega

theorem drivenLine_eq_none {s : State} : drivenLine s = none ↔ s.en = false ∨ s.addr.toNat < 3 := by
  unfold drivenLine
  cases hm : muxTarget s.addr with
  | row q =>
    have := muxTarget_row.mp hm
    constructor
    · intro; right; omega
    · intro; cases s.en <;> rfl
  | line j =>
    have := muxTarget_line.mp hm
    cases s.en <;> simp
    omega

/-- A pin write leaves every line alone but the one that is driven (40_mux_controller.md R69). -/
theorem busTouch_line_other {s : State} {k : Fin 5} (h : drivenLine s ≠ some k) : (busTouch s).line k = s.line k := by
  unfold State.line busTouch
  simp only
  split
  · rename_i j hj
    have hjk : k.val ≠ j.val := fun he => h (by rw [hj, Fin.ext he])
    exact getLsbD_writeBit_other _ _ _ _ hjk
  · rfl

/-- Where no line is driven, a pin write leaves all lines and makes no draw (40_mux_controller.md R60, R69). -/
theorem busTouch_of_none {s : State} (h : drivenLine s = none) : busTouch s = { s with settle := 0 } := by
  unfold busTouch
  rw [h]
  rfl

theorem busTouch_of_some {s : State} {k : Fin 5} (h : drivenLine s = some k) :
    busTouch s =
      { s with settle := 0, outl := writeBit s.outl k.val (Config.anyBit s.draws), draws := s.draws + 1 } := by
  unfold busTouch
  rw [h]
  rfl

@[simp] theorem settleAfter_val (t : Fin 4) (n : Nat) : (settleAfter t n).val = min 3 (t.val + n) := rfl

theorem elapse_of_none {s : State} (n : Nat) (h : drivenLine s = none) :
    elapse n s = { s with settle := settleAfter s.settle n } := by
  unfold elapse
  rw [h]

/-- The driven line takes the data level after two microseconds (40_mux_controller.md R69). -/
theorem elapse_of_some {s : State} {k : Fin 5} (n : Nat) (h : drivenLine s = some k) :
    elapse n s =
      { s with
        settle := settleAfter s.settle n
        outl := if 2 ≤ min 3 (s.settle.val + n) then writeBit s.outl k.val s.data else s.outl } := by
  unfold elapse
  rw [h]
  rfl

/-! ### The scanner -/

theorem rowsel_eq_some {s : State} {q : Fin 3} : s.rowsel = some q ↔ s.en = true ∧ s.addr.toNat = q.val := by
  unfold State.rowsel
  cases hm : muxTarget s.addr with
  | row r =>
    have := muxTarget_row.mp hm
    cases s.en <;> simp [Fin.ext_iff]
    omega
  | line j =>
    have := muxTarget_line.mp hm
    cases s.en <;> simp
    omega

theorem settledRow_eq_some {s : State} {q : Fin 3} :
    settledRow s = some q ↔ s.settle.val = 3 ∧ s.en = true ∧ s.addr.toNat = q.val := by
  unfold settledRow
  have hs := s.settle.isLt
  split
  · rename_i h
    have h3 : s.settle.val = 3 := by have : Config.tRow = 3 := rfl; omega
    simp [rowsel_eq_some, h3]
  · rename_i h
    have h3 : s.settle.val ≠ 3 := by have : Config.tRow = 3 := rfl; omega
    simp [h3]

/-- A settled row's columns show its keys, inverted (41_key_matrix_scanner.md R75). -/
theorem column_of_settled {s : State} {q : Fin 3} (h : settledRow s = some q) (c : Fin 4) :
    column s c = !s.held (cellIndex q c) := by
  unfold column
  rw [h]

/-- A row write puts the four levels into its four cells (41_key_matrix_scanner.md R77). -/
theorem writeRow_cell (km : BitVec 32) (r : Fin 3) (f : Fin 4 → Bool) (c : Fin 4) :
    (writeRow km r f).getLsbD (cellIndex r c).val = f c := by
  have h0 : (cellIndex r c).val = 4 * r.val + c.val := rfl
  have hc : c = 0 ∨ c = 1 ∨ c = 2 ∨ c = 3 := by omega
  unfold writeRow
  simp only [getLsbD_writeBit, cellIndex]
  rcases hc with rfl | rfl | rfl | rfl <;> simp <;> omega

/-- A row write leaves every cell of the other rows and every cell from 12 on. -/
theorem writeRow_other (km : BitVec 32) (r : Fin 3) (f : Fin 4 → Bool) (j : Nat) (h : j / 4 ≠ r.val) :
    (writeRow km r f).getLsbD j = km.getLsbD j := by
  unfold writeRow
  simp only [getLsbD_writeBit, cellIndex, Fin.val_zero, Fin.val_one, Fin.val_two]
  have h3 : ((3 : Fin 4)).val = 3 := rfl
  rw [if_neg, if_neg, if_neg, if_neg] <;> omega

/-! ### FG's position -/

@[simp] theorem hasForeground_nil : hasForeground [] = false := rfl

@[simp] theorem hasForeground_cons (w : CommandWord) (ws : List CommandWord) :
    hasForeground (w :: ws) = (isForeground w || hasForeground ws) := by simp [hasForeground]

@[simp] theorem hasForeground_append (ws vs : List CommandWord) :
    hasForeground (ws ++ vs) = (hasForeground ws || hasForeground vs) := by simp [hasForeground]

/-- The word of an instruction is FG's exactly when the instruction is (30_encoding.md R45). -/
theorem isForeground_encode (i : Instr) : isForeground (encode i) = decide (i.agent = .fg) := by
  cases i with
  | dat v => cases v <;> rfl
  | adr a => revert a; decide
  | smp a => revert a; decide
  | rsvi a => revert a; decide
  | selrow a => revert a; decide
  | scanrow a => revert a; decide
  | setout a v => cases v <;> (revert a; decide)
  | keydn a => revert a; decide
  | keyup a => revert a; decide
  | _ => rfl

theorem passDone_of_foreground {s : State} (h : hasForeground s.rest = true) : passDone s = false := by
  unfold passDone
  rw [h]
  rfl

/-- While a step of FG stands in the stream, the pass goes on. -/
theorem advanceFg_of_foreground {s : State} (h : hasForeground s.rest = true) :
    advanceFg s = { s with fgpc := s.fgpc + 1 } := by
  unfold advanceFg passDone
  rw [h]
  rfl

/-- At the end of a pass `FGPC` is at the first step of the loop body (10_state.md R25). -/
theorem advanceFg_of_passDone {s : State} (h : passDone s = true) :
    advanceFg s = { s with fgpc := (streamSteps s.prog).length } := by
  unfold advanceFg
  rw [h]
  rfl

theorem advanceFg_of_not_passDone {s : State} (h : passDone s = false) :
    advanceFg s = { s with fgpc := s.fgpc + 1 } := by
  unfold advanceFg
  rw [h]
  rfl

/-- Words still to come are not touched. -/
theorem refill_of_cons {s : State} {w : CommandWord} {ws : List CommandWord} (h : s.rest = w :: ws) :
    refill s = s := by
  unfold refill
  rw [h, List.isEmpty_cons]
  rw [← h]
  rfl

/-- A stream executed to its last word goes on with the loop body. -/
theorem refill_of_nil {s : State} (h : s.rest = []) :
    refill s = { s with rest := s.loop, fgpc := (streamSteps s.prog).length } := by
  unfold refill
  rw [h]
  rfl

@[simp] theorem streamSteps_nil : streamSteps [] = [] := rfl

@[simp] theorem streamSteps_cons (w : CommandWord) (ws : List CommandWord) :
    streamSteps (w :: ws) = wordSteps w ++ streamSteps ws := by simp [streamSteps]

@[simp] theorem streamSteps_append (ws vs : List CommandWord) :
    streamSteps (ws ++ vs) = streamSteps ws ++ streamSteps vs := by simp [streamSteps]

/-- An event word is no step of FG (30_encoding.md R45). -/
theorem wordSteps_of_event : ∀ w : CommandWord, isForeground w = false → wordSteps w = [] := by decide

theorem streamSteps_of_no_foreground {ws : List CommandWord} (h : hasForeground ws = false) : streamSteps ws = [] := by
  induction ws with
  | nil => rfl
  | cons w ws ih =>
    simp only [hasForeground_cons, Bool.or_eq_false_iff] at h
    rw [streamSteps_cons, wordSteps_of_event w h.1, ih h.2, List.nil_append]

theorem wordSteps_of_decode {w : CommandWord} {i : Instr} (h : decode w = .ok i) : wordSteps w = atomics i := by
  unfold wordSteps
  rw [h]

end Sys2Proof.Machine
end

