-- ==== Sys2Proof/Laws/PerInstr.lean ====
section
/-! SUPPORT. Statements made once per command: the class bits of its word, and the atomic steps it is made of. -/

namespace Sys2Proof.Laws

/-- The two top bits of a command's word say its kind: 00 atomic, 01 composite, 1x event (30_encoding.md R45, R48). -/
def ClassBits.Statement (i : Instr) : Prop :=
  (i.kind = .atomic ↔ (encode i).extractLsb' 6 2 = 0b00#2) ∧
    (i.kind = .composite ↔ (encode i).extractLsb' 6 2 = 0b01#2) ∧
    (i.kind = .event ↔ (encode i).getLsbD 7 = true)

/-- A well-formed command is made of well-formed atomic steps; of none exactly when it is no command of FG
(30_encoding.md R51, R52). -/
def Expansion.Statement (i : Instr) : Prop :=
  i.wf = true → (∀ j ∈ Machine.atomics i, j.kind = .atomic ∧ j.wf = true) ∧
    (Machine.atomics i = [] ↔ i.agent ≠ .fg)

theorem classBits (i : Instr) : ClassBits.Statement i := by
  unfold ClassBits.Statement
  cases i with
  | dat v => revert v; decide
  | adr a => revert a; decide
  | smp r => revert r; decide
  | rsvi n => revert n; decide
  | selrow a => revert a; decide
  | scanrow r => revert r; decide
  | setout a v => revert a v; decide
  | keydn n => revert n; decide
  | keyup n => revert n; decide
  | _ => decide

theorem expansion (i : Instr) : Expansion.Statement i := by
  intro h
  cases i with
  | dat v => simp [Machine.atomics, Instr.kind, Instr.wf, Instr.agent]
  | adr a => simp [Machine.atomics, Instr.kind, Instr.wf, Instr.agent]
  | smp r => simpa [Machine.atomics, Instr.kind, Instr.wf, Instr.agent] using h
  | rsvi n => simpa [Machine.atomics, Instr.kind, Instr.wf, Instr.agent] using h
  | selrow a => simp [Machine.atomics, Machine.selrowSteps, Instr.kind, Instr.wf, Instr.agent]
  | scanrow r =>
    simpa [Machine.atomics, Machine.scanrowSteps, Machine.selrowSteps, Instr.kind, Instr.wf, Instr.agent] using h
  | setout a v => simp [Machine.atomics, Machine.setoutSteps, Instr.kind, Instr.wf, Instr.agent]
  | keydn n => simp [Machine.atomics, Instr.agent]
  | keyup n => simp [Machine.atomics, Instr.agent]
  | _ => decide

theorem ClassBits.enl : ClassBits.Statement .enl := classBits _
theorem ClassBits.enh : ClassBits.Statement .enh := classBits _
theorem ClassBits.dat (v : Bool) : ClassBits.Statement (.dat v) := classBits _
theorem ClassBits.dly2 : ClassBits.Statement .dly2 := classBits _
theorem ClassBits.dly3 : ClassBits.Statement .dly3 := classBits _
theorem ClassBits.wait100 : ClassBits.Statement .wait100 := classBits _
theorem ClassBits.adr (a : MuxAddr) : ClassBits.Statement (.adr a) := classBits _
theorem ClassBits.smp (r : BitVec 3) : ClassBits.Statement (.smp r) := classBits _
theorem ClassBits.kmnew : ClassBits.Statement .kmnew := classBits _
theorem ClassBits.rsvb : ClassBits.Statement .rsvb := classBits _
theorem ClassBits.rsve : ClassBits.Statement .rsve := classBits _
theorem ClassBits.ledt : ClassBits.Statement .ledt := classBits _
theorem ClassBits.arm : ClassBits.Statement .arm := classBits _
theorem ClassBits.rsvi (n : NoteField) : ClassBits.Statement (.rsvi n) := classBits _
theorem ClassBits.selrow (a : MuxAddr) : ClassBits.Statement (.selrow a) := classBits _
theorem ClassBits.scanrow (r : BitVec 3) : ClassBits.Statement (.scanrow r) := classBits _
theorem ClassBits.setout (a : MuxAddr) (v : Bool) : ClassBits.Statement (.setout a v) := classBits _
theorem ClassBits.resolve : ClassBits.Statement .resolve := classBits _
theorem ClassBits.scan : ClassBits.Statement .scan := classBits _
theorem ClassBits.startup : ClassBits.Statement .startup := classBits _
theorem ClassBits.fgiter : ClassBits.Statement .fgiter := classBits _
theorem ClassBits.tick : ClassBits.Statement .tick := classBits _
theorem ClassBits.reset : ClassBits.Statement .reset := classBits _
theorem ClassBits.keydn (n : NoteField) : ClassBits.Statement (.keydn n) := classBits _
theorem ClassBits.keyup (n : NoteField) : ClassBits.Statement (.keyup n) := classBits _

theorem Expansion.enl : Expansion.Statement .enl := expansion _
theorem Expansion.enh : Expansion.Statement .enh := expansion _
theorem Expansion.dat (v : Bool) : Expansion.Statement (.dat v) := expansion _
theorem Expansion.dly2 : Expansion.Statement .dly2 := expansion _
theorem Expansion.dly3 : Expansion.Statement .dly3 := expansion _
theorem Expansion.wait100 : Expansion.Statement .wait100 := expansion _
theorem Expansion.adr (a : MuxAddr) : Expansion.Statement (.adr a) := expansion _
theorem Expansion.smp (r : BitVec 3) : Expansion.Statement (.smp r) := expansion _
theorem Expansion.kmnew : Expansion.Statement .kmnew := expansion _
theorem Expansion.rsvb : Expansion.Statement .rsvb := expansion _
theorem Expansion.rsve : Expansion.Statement .rsve := expansion _
theorem Expansion.ledt : Expansion.Statement .ledt := expansion _
theorem Expansion.arm : Expansion.Statement .arm := expansion _
theorem Expansion.rsvi (n : NoteField) : Expansion.Statement (.rsvi n) := expansion _
theorem Expansion.selrow (a : MuxAddr) : Expansion.Statement (.selrow a) := expansion _
theorem Expansion.scanrow (r : BitVec 3) : Expansion.Statement (.scanrow r) := expansion _
theorem Expansion.setout (a : MuxAddr) (v : Bool) : Expansion.Statement (.setout a v) := expansion _
theorem Expansion.resolve : Expansion.Statement .resolve := expansion _
theorem Expansion.scan : Expansion.Statement .scan := expansion _
theorem Expansion.startup : Expansion.Statement .startup := expansion _
theorem Expansion.fgiter : Expansion.Statement .fgiter := expansion _
theorem Expansion.tick : Expansion.Statement .tick := expansion _
theorem Expansion.reset : Expansion.Statement .reset := expansion _
theorem Expansion.keydn (n : NoteField) : Expansion.Statement (.keydn n) := expansion _
theorem Expansion.keyup (n : NoteField) : Expansion.Statement (.keyup n) := expansion _

end Sys2Proof.Laws
end

