-- ==== Sys2Proof/Laws/Step.lean ====
section
/-! SUPPORT. What a step and a run are, one law a kind of turn; the schedule is read by nothing but the choice of the turn. -/

namespace Sys2Proof.Machine

/-! ### One turn -/

theorem fetchWord_refill {s : State} {w : CommandWord} {ws : List CommandWord} {i : Instr}
    (hr : (refill s).rest = w :: ws) (hd : decode w = .ok i) : fetchWord s = .run i ((refill s).withRest ws) := by
  unfold fetchWord
  rw [hr]
  simp only [hd]

theorem fetchWord_cons {s : State} {w : CommandWord} {ws : List CommandWord} {i : Instr} (hr : s.rest = w :: ws)
    (hd : decode w = .ok i) : fetchWord s = .run i (s.withRest ws) := by
  have h := refill_of_cons hr
  rw [fetchWord_refill (w := w) (ws := ws) (by rw [h, hr]) hd, h]

theorem fetchWord_refused {s : State} {w : CommandWord} {ws : List CommandWord} {e : DecodeError}
    (hr : (refill s).rest = w :: ws) (hd : decode w = .error e) : fetchWord s = .stop (refusalOf e) := by
  unfold fetchWord
  rw [hr]
  simp only [hd]

theorem fetchWord_ended {s : State} (hr : s.rest = []) (hl : s.loop = []) : fetchWord s = .stop .streamEnded := by
  unfold fetchWord
  rw [refill_of_nil hr]
  simp only [hl]

/-- FG's turn runs the command the next word spells. -/
theorem step_fg {s : State} {ts : List Turn} {w : CommandWord} {ws : List CommandWord} {i : Instr}
    (hs : s.sched = .fg :: ts) (hr : s.rest = w :: ws) (hd : decode w = .ok i) :
    step s = exec i ((s.withRest ws).under ts) := by
  unfold step fetch
  rw [hs]
  simp only [fetchWord_cons (s := s.under ts) hr hd]
  rfl

theorem step_unscheduled {s : State} {w : CommandWord} {ws : List CommandWord} {i : Instr}
    (hs : s.sched = []) (hr : s.rest = w :: ws) (hd : decode w = .ok i) : step s = exec i (s.withRest ws) := by
  unfold step fetch
  rw [hs]
  simp only [fetchWord_cons hr hd]

/-- FG's turn at the end of a pass runs the first word of the loop body. -/
theorem step_fg_refill {s : State} {ts : List Turn} {w : CommandWord} {ws : List CommandWord} {i : Instr}
    (hs : s.sched = .fg :: ts) (hr : (refill s).rest = w :: ws) (hd : decode w = .ok i) :
    step s = exec i (((refill s).withRest ws).under ts) := by
  unfold step fetch
  rw [hs]
  simp only [fetchWord_refill (s := s.under ts) hr hd]
  rfl

theorem step_sc {s : State} {ts : List Turn} (hs : s.sched = .sc :: ts) :
    step s = .next (if s.armed then takeTick (s.under ts) else s.under ts) := by
  unfold step fetch
  rw [hs]
  cases ha : s.armed
  · simp
  · simp [exec, execTick, ha]

theorem step_keydn {s : State} {ts : List Turn} {k : Fin 12} (hs : s.sched = .keydn k :: ts) :
    step s = .next (setKey k true (s.under ts)) := by
  unfold step fetch
  rw [hs]
  simp [exec, execKeydn]

theorem step_keyup {s : State} {ts : List Turn} {k : Fin 12} (hs : s.sched = .keyup k :: ts) :
    step s = .next (setKey k false (s.under ts)) := by
  unfold step fetch
  rw [hs]
  simp [exec, execKeyup]

theorem step_reset {s : State} {ts : List Turn} (hs : s.sched = .reset :: ts) :
    step s = .next (applyReset (s.under ts)) := by
  unfold step fetch
  rw [hs]
  rfl

/-! ### exec does not read the schedule -/

@[simp] theorem under_under (s : State) (σ τ : List Turn) : (s.under σ).under τ = s.under τ := rfl

@[simp] theorem under_self (s : State) : s.under s.sched = s := rfl

/-- What a command does, it does whatever is scheduled after it. -/
theorem exec_sched {i : Instr} {s t : State} (σ : List Turn) (h : exec i s = .next t) :
    exec i (s.under σ) = .next (t.under σ) := by
  cases i with
  | smp r =>
    cases hr : rowOf r <;> simp only [exec, execSmp, hr] at h ⊢ <;> cases h
    rfl
  | scanrow r =>
    cases hr : rowOf r <;> simp only [exec, execScanrow, hr] at h ⊢ <;> cases h
    rfl
  | rsvi n =>
    cases hr : noteOf n <;> simp only [exec, execRsvi, hr] at h ⊢ <;> cases h
    rfl
  | keydn n =>
    cases hr : noteOf n <;> simp only [exec, execKeydn, hr] at h ⊢ <;> cases h
    rfl
  | keyup n =>
    cases hr : noteOf n <;> simp only [exec, execKeyup, hr] at h ⊢ <;> cases h
    rfl
  | tick =>
    cases ha : s.armed <;> simp only [exec, execTick, ha] at h ⊢ <;> cases h
    rw [show (s.under σ).armed = true from ha]
    rfl
  | _ => cases h; rfl

/-- No command changes the schedule. -/
theorem exec_keeps_sched {i : Instr} {s t : State} (h : exec i s = .next t) : t.sched = s.sched := by
  have h' := exec_sched s.sched h
  rw [under_self, h] at h'
  injection h' with h''
  rw [h'', under_sched]

/-! ### Runs -/

@[simp] theorem runSteps_zero (s : State) : runSteps 0 s = .next s := rfl

theorem runSteps_succ {n : Nat} {s t : State} (h : step s = .next t) : runSteps (n + 1) s = runSteps n t := by
  rw [runSteps, h]

/-- A run that goes on is its first step and a run. -/
theorem runSteps_succ_next {n : Nat} {s u : State} (h : runSteps (n + 1) s = .next u) :
    ∃ t, step s = .next t ∧ runSteps n t = .next u := by
  rw [runSteps] at h
  cases hs : step s with
  | next t => rw [hs] at h; exact ⟨t, rfl, h⟩
  | fault r => exact nomatch r
  | refused r => rw [hs] at h; simp at h

@[simp] theorem runUnder_nil (s : State) : runUnder [] s = .next (s.under []) := rfl

/-- The host's run of the machine is `runSteps`. -/
theorem core_run_eq (n : Nat) (s : State) : Host.Core.run Sys2Proof.core n s = runSteps n s := by
  induction n generalizing s with
  | zero => rfl
  | succ n ih =>
    cases hs : step s with
    | next t =>
      have hc : Sys2Proof.core.step s = .next t := hs
      simp only [Host.Core.run, runSteps, hc, hs]
      exact ih t
    | fault r => exact nomatch r
    | refused r =>
      have hc : Sys2Proof.core.step s = .refused r := hs
      simp only [Host.Core.run, runSteps, hc, hs]
      rfl

/-- A fetched word that runs, and the state it runs from. -/
theorem fetchWord_run {s u : State} {i : Instr} (h : fetchWord s = .run i u) :
    ∃ w ws, (refill s).rest = w :: ws ∧ decode w = .ok i ∧ u = (refill s).withRest ws := by
  unfold fetchWord at h
  cases hr : (refill s).rest with
  | nil => rw [hr] at h; cases h
  | cons w ws =>
    rw [hr] at h
    cases hd : decode w with
    | error e => simp only [hd] at h; cases h
    | ok j =>
      simp only [hd] at h
      injection h with hi hu
      subst hi
      exact ⟨w, ws, rfl, hd, hu.symm⟩

theorem fetchWord_not_idle {s u : State} (h : fetchWord s = .idle u) : False := by
  unfold fetchWord at h
  split at h
  · cases h
  · split at h <;> cases h

theorem step_fg_next {s t : State} {ts : List Turn} (hs : s.sched = .fg :: ts) (h : step s = .next t) :
    ∃ w ws i, (refill s).rest = w :: ws ∧ decode w = .ok i ∧
      exec i (((refill s).withRest ws).under ts) = .next t := by
  unfold step fetch at h
  rw [hs] at h
  cases hf : fetchWord (s.under ts) with
  | run i u =>
    obtain ⟨w, ws, hr, hd, rfl⟩ := fetchWord_run hf
    simp only [hf] at h
    exact ⟨w, ws, i, hr, hd, h⟩
  | idle u => exact (fetchWord_not_idle hf).elim
  | stop r => simp [hf] at h

theorem step_unscheduled_next {s t : State} (hs : s.sched = []) (h : step s = .next t) :
    ∃ w ws i, (refill s).rest = w :: ws ∧ decode w = .ok i ∧ exec i ((refill s).withRest ws) = .next t := by
  unfold step fetch at h
  rw [hs] at h
  cases hf : fetchWord s with
  | run i u =>
    obtain ⟨w, ws, hr, hd, rfl⟩ := fetchWord_run hf
    simp only [hf] at h
    exact ⟨w, ws, i, hr, hd, h⟩
  | idle u => exact (fetchWord_not_idle hf).elim
  | stop r => simp [hf] at h

/-- Everything a step that goes on can have been: FG's turn on a word it decodes, a turn of the clock, a key event, or
a reset. -/
theorem step_cases {s t : State} (h : step s = .next t) :
    ((s.sched = [] ∨ ∃ σ, s.sched = .fg :: σ) ∧ ∃ w ws i, (refill s).rest = w :: ws ∧ decode w = .ok i ∧
        exec i (((refill s).withRest ws).under s.sched.tail) = .next t) ∨
      (∃ σ, s.sched = .sc :: σ ∧ (s.armed = false ∧ t = s.under σ ∨ s.armed = true ∧ t = takeTick (s.under σ))) ∨
      (∃ σ k v, (s.sched = .keydn k :: σ ∧ v = true ∨ s.sched = .keyup k :: σ ∧ v = false) ∧
        t = setKey k v (s.under σ)) ∨
      ∃ σ, s.sched = .reset :: σ ∧ t = applyReset (s.under σ) := by
  cases hs : s.sched with
  | nil =>
    obtain ⟨w, ws, i, hr, hd, he⟩ := step_unscheduled_next hs h
    refine .inl ⟨.inl rfl, w, ws, i, hr, hd, ?_⟩
    have hu : ((refill s).withRest ws).under ([] : List Turn).tail = (refill s).withRest ws := by
      rw [List.tail_nil, ← hs]
      rfl
    rw [hu, he]
  | cons u σ =>
    cases u with
    | fg =>
      obtain ⟨w, ws, i, hr, hd, he⟩ := step_fg_next hs h
      exact .inl ⟨.inr ⟨σ, rfl⟩, w, ws, i, hr, hd, he⟩
    | sc =>
      have h1 := h.symm.trans (step_sc hs)
      injection h1 with h1
      refine .inr (.inl ⟨σ, rfl, ?_⟩)
      cases ha : s.armed
      · exact .inl ⟨rfl, by simpa [ha] using h1⟩
      · exact .inr ⟨rfl, by simpa [ha] using h1⟩
    | keydn k =>
      have h1 := h.symm.trans (step_keydn hs)
      injection h1 with h1
      exact .inr (.inr (.inl ⟨σ, k, true, .inl ⟨rfl, rfl⟩, h1⟩))
    | keyup k =>
      have h1 := h.symm.trans (step_keyup hs)
      injection h1 with h1
      exact .inr (.inr (.inl ⟨σ, k, false, .inr ⟨rfl, rfl⟩, h1⟩))
    | reset =>
      have h1 := h.symm.trans (step_reset hs)
      injection h1 with h1
      exact .inr (.inr (.inr ⟨σ, rfl, h1⟩))

/-- A step takes one turn off the schedule, and does what it does whatever stands behind that turn. -/
theorem step_tail {s t : State} {u : Turn} {σ : List Turn} (τ : List Turn)
    (h : step (s.under (u :: σ)) = .next t) :
    t.sched = σ ∧ step (s.under (u :: τ)) = .next (t.under τ) := by
  cases u with
  | fg =>
    obtain ⟨w, ws, i, hr, hd, he⟩ := step_fg_next (ts := σ) rfl h
    refine ⟨exec_keeps_sched he, ?_⟩
    rw [step_fg_refill (s := s.under (.fg :: τ)) (ts := τ) rfl hr hd]
    exact exec_sched (s := ((refill (s.under (.fg :: σ))).withRest ws).under σ) τ he
  | sc =>
    have h1 := h.symm.trans (step_sc rfl)
    injection h1 with h1
    subst h1
    refine ⟨?_, (step_sc rfl).trans ?_⟩ <;> cases ha : (s.under (.sc :: σ)).armed <;>
      simp_all [State.under, takeTick]
  | keydn k =>
    have h1 := h.symm.trans (step_keydn rfl)
    injection h1 with h1
    subst h1
    exact ⟨rfl, step_keydn (s := s.under _) (ts := τ) (k := k) rfl⟩
  | keyup k =>
    have h1 := h.symm.trans (step_keyup rfl)
    injection h1 with h1
    subst h1
    exact ⟨rfl, step_keyup (s := s.under _) (ts := τ) (k := k) rfl⟩
  | reset =>
    have h1 := h.symm.trans (step_reset rfl)
    injection h1 with h1
    subst h1
    exact ⟨rfl, step_reset (s := s.under _) (ts := τ) rfl⟩

/-- A run under a schedule is its first turn and the run under the others. -/
theorem runUnder_cons {s t : State} {u : Turn} {σ : List Turn} (h : step (s.under (u :: σ)) = .next t) :
    runUnder (u :: σ) s = runUnder σ t := by
  have hs : t = t.under σ := by rw [State.under, ← (step_tail σ h).1]
  unfold runUnder
  rw [List.length_cons, runSteps_succ h, ← hs]

theorem runUnder_cons_next {s v : State} {u : Turn} {σ : List Turn} (h : runUnder (u :: σ) s = .next v) :
    ∃ t, step (s.under (u :: σ)) = .next t ∧ runUnder σ t = .next v := by
  obtain ⟨t, ht, _⟩ := runSteps_succ_next (n := σ.length) h
  exact ⟨t, ht, by rw [← runUnder_cons ht]; exact h⟩

/-- Schedules run one after the other. -/
theorem runUnder_append {s t : State} {σ τ : List Turn} (h : runUnder σ s = .next t) :
    runUnder (σ ++ τ) s = runUnder τ t := by
  induction σ generalizing s with
  | nil =>
    injection h with h
    subst h
    rfl
  | cons u σ ih =>
    obtain ⟨v, hv, hr⟩ := runUnder_cons_next h
    rw [List.cons_append, runUnder_cons (step_tail (σ ++ τ) hv).2]
    exact ih hr

/-- What holds before a run and is kept by every step of it holds after it. -/
theorem runUnder_keeps {P : State → Prop} (hstep : ∀ s t, P s → step s = .next t → P t)
    (hsched : ∀ s σ, P s → P (s.under σ)) {s t : State} {σ : List Turn} (hs : P s)
    (h : runUnder σ s = .next t) : P t := by
  induction σ generalizing s with
  | nil =>
    injection h with h
    subst h
    exact hsched _ _ hs
  | cons u σ ih =>
    obtain ⟨v, hv, hr⟩ := runUnder_cons_next h
    exact ih (hstep _ _ (hsched _ _ hs) hv) hr

/-- The same, of every reachable state. -/
theorem reachable_of_kept {P : State → Prop} (hreset : P State.reset) (hstep : ∀ s t, P s → step s = .next t → P t)
    (hsched : ∀ s σ, P s → P (s.under σ)) {t : State} (h : Reachable t) : P t := by
  obtain ⟨σ, hσ⟩ := h
  exact runUnder_keeps hstep hsched hreset hσ

end Sys2Proof.Machine
end

