-- ==== Sys2Proof/Laws/Run.lean ====
section
/-! SUPPORT. What a stretch of atomic steps comes to when any number of ticks falls between them: the fold of their effects, with FG's position moved on. -/

namespace Sys2Proof.Machine

/-- The effect of an atomic step of FG on the state, its position apart; the commands that are no atomic step, and a
reserved operand, have none here. -/
def effect : Instr → State → State
  | .enl => driveEnable false
  | .enh => driveEnable true
  | .dat v => driveData v
  | .dly2 => elapse 2
  | .dly3 => elapse 3
  | .wait100 => elapse 100000
  | .adr a => driveAddress a
  | .smp r => match rowOf r with
    | some q => sampleRow q
    | none => id
  | .kmnew => recreateMatrix
  | .rsvb => beginResolution
  | .rsve => endResolution
  | .ledt => fun s => { s with led := !s.led }
  | .arm => fun s => { s with armed := true }
  | .rsvi i => match noteOf i with
    | some m => resolvePass m
    | none => id
  | .selrow _ | .scanrow _ | .setout _ _ | .resolve | .scan | .startup | .fgiter | .tick | .reset | .keydn _
  | .keyup _ => id

/-- An atomic step with a legal operand runs: its effect, and FG goes on (10_state.md R25). -/
theorem exec_atomic {i : Instr} (hk : i.kind = .atomic) (hw : i.wf = true) (s : State) :
    exec i s = .next (advanceFg (effect i s)) := by
  cases i with
  | smp r =>
    obtain ⟨q, hq⟩ := rowOf_of_legal hw
    simp [exec, execSmp, effect, hq, fgStep]
  | rsvi n =>
    obtain ⟨m, hm⟩ := noteOf_of_legal hw
    simp [exec, execRsvi, effect, hm, fgStep]
  | selrow _ => cases hk
  | scanrow _ => cases hk
  | setout _ _ => cases hk
  | resolve => cases hk
  | scan => cases hk
  | startup => cases hk
  | fgiter => cases hk
  | tick => cases hk
  | reset => cases hk
  | keydn _ => cases hk
  | keyup _ => cases hk
  | _ => rfl

/-- Two states agree but for the oscillator, the schedule and FG's position. -/
structure AlikeForFg (s t : State) : Prop where
  addr : t.addr = s.addr
  en : t.en = s.en
  data : t.data = s.data
  settle : t.settle = s.settle
  outl : t.outl = s.outl
  km : t.km = s.km
  kp : t.kp = s.kp
  css : t.css = s.css
  note : t.note = s.note
  armed : t.armed = s.armed
  led : t.led = s.led
  key : t.key = s.key
  prog : t.prog = s.prog
  loop : t.loop = s.loop
  draws : t.draws = s.draws

theorem AlikeForFg.refl (s : State) : AlikeForFg s s := by constructor <;> rfl

theorem AlikeForFg.trans {s t u : State} (h : AlikeForFg s t) (h' : AlikeForFg t u) : AlikeForFg s u := by
  constructor
  · rw [h'.addr, h.addr]
  · rw [h'.en, h.en]
  · rw [h'.data, h.data]
  · rw [h'.settle, h.settle]
  · rw [h'.outl, h.outl]
  · rw [h'.km, h.km]
  · rw [h'.kp, h.kp]
  · rw [h'.css, h.css]
  · rw [h'.note, h.note]
  · rw [h'.armed, h.armed]
  · rw [h'.led, h.led]
  · rw [h'.key, h.key]
  · rw [h'.prog, h.prog]
  · rw [h'.loop, h.loop]
  · rw [h'.draws, h.draws]

theorem alike_iff {s t : State} :
    AlikeForFg s t ↔
      t = { s with acc := t.acc, audio := t.audio, fgpc := t.fgpc, rest := t.rest, sched := t.sched } := by
  constructor
  · intro h
    cases t
    cases h
    simp_all
  · intro h
    rw [h]
    constructor <;> rfl

/-- An effect reads nothing but what `AlikeForFg` compares. -/
theorem AlikeForFg.effect {s t : State} (h : AlikeForFg s t) (i : Instr) :
    AlikeForFg (effect i s) (effect i t) := by
  rw [alike_iff.mp h]
  cases i with
  | smp r => cases hr : rowOf r <;> simp only [Machine.effect, hr] <;> constructor <;> rfl
  | rsvi n => cases hn : noteOf n <;> simp only [Machine.effect, hn] <;> constructor <;> rfl
  | _ => constructor <;> rfl

theorem alike_advanceFg (s : State) : AlikeForFg s (advanceFg s) := by constructor <;> rfl

theorem alike_takeTick (s : State) : AlikeForFg s (takeTick s) := by constructor <;> rfl

theorem alike_under (s : State) (σ : List Turn) : AlikeForFg s (s.under σ) := by constructor <;> rfl

theorem alike_withRest (s : State) (ws : List CommandWord) : AlikeForFg s (s.withRest ws) := by constructor <;> rfl

/-- No effect moves FG or touches the oscillator or the schedule. -/
theorem effect_else (i : Instr) (s : State) :
    (effect i s).rest = s.rest ∧ (effect i s).fgpc = s.fgpc ∧ (effect i s).acc = s.acc ∧
      (effect i s).audio = s.audio ∧ (effect i s).sched = s.sched ∧ (effect i s).prog = s.prog ∧
      (effect i s).loop = s.loop := by
  cases i with
  | smp r => cases hr : rowOf r <;> simp only [effect, hr] <;> exact ⟨rfl, rfl, rfl, rfl, rfl, rfl, rfl⟩
  | rsvi n => cases hn : noteOf n <;> simp only [effect, hn] <;> exact ⟨rfl, rfl, rfl, rfl, rfl, rfl, rfl⟩
  | _ => exact ⟨rfl, rfl, rfl, rfl, rfl, rfl, rfl⟩

theorem alike_foldl {s t : State} (h : AlikeForFg s t) (is : List Instr) :
    AlikeForFg (is.foldl (fun u i => effect i u) s) (is.foldl (fun u i => effect i u) t) := by
  induction is generalizing s t with
  | nil => exact h
  | cons i is ih => exact ih (h.effect i)

/-- FG's turn on an atomic step, whatever turns follow. -/
theorem runUnder_fg {s : State} {i : Instr} {ws : List CommandWord} {σ : List Turn} (hk : i.kind = .atomic)
    (hd : decode (encode i) = .ok i) (hw : i.wf = true) (hr : s.rest = encode i :: ws) :
    runUnder (.fg :: σ) s = runUnder σ (advanceFg (effect i (s.withRest ws))) := by
  have h1 : step (s.under (.fg :: σ)) = exec i ((s.withRest ws).under σ) :=
    step_fg (s := s.under (.fg :: σ)) rfl hr hd
  rw [exec_sched σ (exec_atomic hk hw (s.withRest ws))] at h1
  rw [runUnder_cons h1]
  rfl

theorem runUnder_sc {s : State} {σ : List Turn} :
    runUnder (.sc :: σ) s = runUnder σ (if s.armed then takeTick s else s) := by
  have h1 := step_sc (s := s.under (.sc :: σ)) (ts := σ) rfl
  rw [runUnder_cons h1]
  cases ha : s.armed <;> simp [ha] <;> rfl

theorem advanceFg_fgpc (s : State) : (advanceFg s).fgpc =
    if !hasForeground s.rest && hasForeground s.loop then (streamSteps s.prog).length else s.fgpc + 1 := rfl

/-- Atomic steps with legal operands whose words the decoder reads back: what stands in a stream for a composite. -/
def PlainSteps (is : List Instr) : Prop :=
  ∀ i ∈ is, i.kind = .atomic ∧ i.wf = true ∧ decode (encode i) = .ok i ∧ isForeground (encode i) = true

theorem PlainSteps.tail {i : Instr} {is : List Instr} (h : PlainSteps (i :: is)) : PlainSteps is :=
  fun j hj => h j (List.mem_cons_of_mem _ hj)

/-- A run of `n` turns of FG, with ticks anywhere between them, over a stream that holds at least `n` plain steps: the
steps' effects in order, FG `n` steps on, and, without ticks, the oscillator as it was. -/
theorem runUnder_plainSteps {is : List Instr} {σ : List Turn} {s : State} {ws : List CommandWord}
    (hp : PlainSteps is) (hσ : OnlyTicks σ) (hn : σ.count .fg ≤ is.length) (hr : s.rest = is.map encode ++ ws) :
    ∃ t, runUnder σ s = .next t ∧ AlikeForFg ((is.take (σ.count .fg)).foldl (fun u i => effect i u) s) t ∧
      (σ.count .fg = 0 → t.rest = s.rest ∧ t.fgpc = s.fgpc) ∧
      (0 < σ.count .fg → FgWentOn (σ.count .fg) (s.withRest ((is.drop (σ.count .fg)).map encode ++ ws)) t) ∧
      (.sc ∉ σ → t.acc = s.acc ∧ t.audio = s.audio) := by
  induction σ generalizing s is ws with
  | nil => exact ⟨_, rfl, alike_under s [], fun _ => ⟨rfl, rfl⟩, fun h => absurd h (by simp), fun _ => ⟨rfl, rfl⟩⟩
  | cons u σ ih =>
    have hσ' : OnlyTicks σ := fun x hx => hσ x (List.mem_cons_of_mem _ hx)
    rcases hσ u (List.mem_cons_self ..) with rfl | rfl
    · rw [List.count_cons_self] at hn ⊢
      cases is with
      | nil => simp at hn
      | cons i is =>
        obtain ⟨hk, hw, hd, -⟩ := hp i (List.mem_cons_self ..)
        rw [runUnder_fg (ws := is.map encode ++ ws) hk hd hw hr]
        have ha1 : AlikeForFg (effect i s) (advanceFg (effect i (s.withRest (is.map encode ++ ws)))) :=
          ((alike_withRest s _).effect i).trans (alike_advanceFg _)
        obtain ⟨e1, e2, e3, e4, -, e6, e7⟩ := effect_else i (s.withRest (is.map encode ++ ws))
        cases is with
        | nil =>
          have h0 : σ.count .fg = 0 := by simpa using hn
          obtain ⟨t, ht, hal, hz, -, hosc⟩ :=
            ih (is := []) (s := advanceFg (effect i (s.withRest ([].map encode ++ ws))))
              (ws := (advanceFg (effect i (s.withRest ([].map encode ++ ws)))).rest)
              (by simp [PlainSteps]) hσ' (by simp [h0]) (by simp)
          refine ⟨t, ht, ?_, by simp, fun _ => ?_, fun hno => ?_⟩
          · rw [h0] at hal ⊢
            exact ha1.trans hal
          · obtain ⟨z1, z2⟩ := hz h0
            refine ⟨?_, ?_, ?_, ?_⟩
            · rw [hal.prog, h0]; exact e6
            · rw [hal.loop, h0]; exact e7
            · rw [z1, h0]
              exact e1
            · rw [z2, h0]
              simp only [advanceFg_fgpc, e1, e2, e6, e7]
              rfl
          · obtain ⟨o1, o2⟩ := hosc (fun hm => hno (List.mem_cons_of_mem _ hm))
            exact ⟨o1.trans e3, o2.trans e4⟩
        | cons j is =>
          have hfg : hasForeground (effect i (s.withRest ((j :: is).map encode ++ ws))).rest = true := by
            rw [e1]
            simp [(hp j (by simp)).2.2.2]
          rw [advanceFg_of_foreground hfg] at ha1 ⊢
          obtain ⟨t, ht, hal, hz, hpos, hosc⟩ :=
            ih (is := j :: is) (ws := ws)
              (s := { effect i (s.withRest ((j :: is).map encode ++ ws)) with
                fgpc := (effect i (s.withRest ((j :: is).map encode ++ ws))).fgpc + 1 })
              hp.tail hσ' (by simpa using hn) (by simp only [e1]; rfl)
          refine ⟨t, ht, ?_, by simp, fun _ => ?_, fun hno => ?_⟩
          · rw [List.take_succ_cons, List.foldl_cons]
            exact (alike_foldl ha1 _).trans hal
          · rcases Nat.eq_zero_or_pos (σ.count .fg) with h0 | h0
            · obtain ⟨z1, z2⟩ := hz h0
              rw [h0] at hal ⊢
              have hfg' : hasForeground ((j :: is).map encode ++ ws) = true := by
                simp [(hp j (by simp)).2.2.2]
              refine ⟨?_, ?_, ?_, ?_⟩
              · rw [hal.prog]; exact e6
              · rw [hal.loop]; exact e7
              · rw [z1]; exact e1
              · rw [z2, passDone_of_foreground hfg']; simp only [e2]; rfl
            · obtain ⟨p1, p2, p3, p4⟩ := hpos h0
              refine ⟨p1.trans e6, p2.trans e7, ?_, ?_⟩
              · rw [p3]
                rfl
              · rw [p4]
                simp only [passDone, withRest_rest, withRest_loop, withRest_fgpc, withRest_prog, e2, e6, e7]
                rw [Nat.add_assoc, Nat.add_comm 1]
                rfl
          · obtain ⟨o1, o2⟩ := hosc (fun hm => hno (List.mem_cons_of_mem _ hm))
            exact ⟨o1.trans e3, o2.trans e4⟩
    · have hc : (Turn.sc :: σ).count .fg = σ.count .fg := by simp
      rw [hc] at hn ⊢
      rw [runUnder_sc]
      have hal0 : AlikeForFg s (if s.armed then takeTick s else s) := by
        split
        · exact alike_takeTick s
        · exact .refl s
      have hrest : (if s.armed then takeTick s else s).rest = s.rest := by split <;> rfl
      have hpc : (if s.armed then takeTick s else s).fgpc = s.fgpc := by split <;> rfl
      obtain ⟨t, ht, hal, hz, hpos, -⟩ := ih hp hσ' hn (hrest.trans hr)
      refine ⟨t, ht, (alike_foldl hal0 _).trans hal, fun h0 => ?_, fun h0 => ?_, fun hno => ?_⟩
      · obtain ⟨z1, z2⟩ := hz h0
        exact ⟨z1.trans hrest, z2.trans hpc⟩
      · obtain ⟨p1, p2, p3, p4⟩ := hpos h0
        refine ⟨p1.trans hal0.prog, p2.trans hal0.loop, ?_, ?_⟩
        · rw [p3]
          rfl
        · rw [p4]
          simp only [passDone, withRest_rest, withRest_loop, withRest_fgpc, withRest_prog, hal0.loop,
            hal0.prog, hpc]
          rfl
      · exact absurd (List.mem_cons_self ..) hno

/-- A whole number of plain steps, executed with ticks anywhere between them. -/
theorem runUnder_allSteps {is : List Instr} {σ : List Turn} {s : State} {ws : List CommandWord}
    (hp : PlainSteps is) (hσ : OnlyTicks σ) (hn : σ.count .fg = is.length) (h0 : is ≠ [])
    (hr : s.rest = is.map encode ++ ws) :
    ∃ t, runUnder σ s = .next t ∧ AlikeForFg (is.foldl (fun u i => effect i u) s) t ∧
      FgWentOn is.length (s.withRest ws) t ∧ (.sc ∉ σ → t.acc = s.acc ∧ t.audio = s.audio) := by
  obtain ⟨t, ht, ha, -, hp', ho⟩ := runUnder_plainSteps hp hσ (by omega) hr
  rw [hn] at ha hp'
  rw [List.take_length] at ha
  rw [List.drop_length] at hp'
  exact ⟨t, ht, ha, hp' (by cases is <;> simp_all), ho⟩

theorem onlyTicks_fgTurns (n : Nat) : OnlyTicks (fgTurns n) := fun _ hu => .inl (List.eq_of_mem_replicate hu)

theorem count_fgTurns (n : Nat) : (fgTurns n).count .fg = n := by simp [fgTurns]

theorem sc_not_mem_fgTurns (n : Nat) : Turn.sc ∉ fgTurns n := fun h => absurd (List.eq_of_mem_replicate h) (by simp)

/-- A composite executed to its end: its first step, and FG's turns on the others. -/
theorem composite_run {i first : Instr} {more : List Instr} {s : State} (hp : PlainSteps (first :: more))
    (hi : exec i s = exec first (s.withRest (more.map encode ++ s.rest))) :
    ∃ t u, exec i s = .next t ∧ runUnder (fgTurns more.length) t = .next u ∧
      AlikeForFg ((first :: more).foldl (fun u i => effect i u) s) u ∧ FgWentOn (more.length + 1) s u ∧
      u.acc = s.acc ∧ u.audio = s.audio := by
  obtain ⟨hk, hw, hd, -⟩ := hp first (List.mem_cons_self ..)
  have hx : exec first (s.withRest (more.map encode ++ s.rest)) =
      .next (advanceFg (effect first (s.withRest (more.map encode ++ s.rest)))) := exec_atomic hk hw _
  obtain ⟨u, hu, ha, hf, ho⟩ := runUnder_allSteps (is := first :: more) (ws := s.rest)
    (s := s.withRest ((first :: more).map encode ++ s.rest)) hp (onlyTicks_fgTurns (more.length + 1))
    (count_fgTurns _) (by simp) rfl
  refine ⟨_, u, hi.trans hx, ?_, (alike_foldl (alike_withRest s _) _).trans ha, ?_, ho (sc_not_mem_fgTurns _)⟩
  · rw [← hu]
    exact (runUnder_fg (s := s.withRest ((first :: more).map encode ++ s.rest)) hk hd hw rfl).symm
  · exact hf

/-- Under a schedule that gives FG a turn, a composite word may be replaced by the words of its atomic steps
(30_encoding.md R51). -/
theorem runUnder_expand {i first : Instr} {more : List Instr} {s : State} {ws : List CommandWord} {σ : List Turn}
    (hd : decode (encode i) = .ok i)
    (hi : ∀ s : State, exec i s = exec first (s.withRest (more.map encode ++ s.rest)))
    (hp : PlainSteps (first :: more)) (hσ : OnlyTicks σ) (hfg : .fg ∈ σ) (hr : s.rest = encode i :: ws) :
    runUnder σ s = runUnder σ (s.withRest ((first :: more).map encode ++ ws)) := by
  obtain ⟨hk, hw, hdf, -⟩ := hp first (List.mem_cons_self ..)
  induction σ generalizing s with
  | nil => cases hfg
  | cons u σ ih =>
    rcases hσ u (List.mem_cons_self ..) with rfl | rfl
    · have h1 : step (s.under (.fg :: σ)) = exec i ((s.withRest ws).under σ) :=
        step_fg (s := s.under (.fg :: σ)) rfl hr hd
      rw [exec_sched σ ((hi (s.withRest ws)).trans (exec_atomic hk hw _))] at h1
      rw [runUnder_cons h1, runUnder_fg (s := s.withRest ((first :: more).map encode ++ ws)) hk hdf hw rfl]
      rfl
    · rw [runUnder_sc, runUnder_sc]
      have hfg' : .fg ∈ σ := by simpa using hfg
      have hσ' : OnlyTicks σ := fun x hx => hσ x (List.mem_cons_of_mem _ hx)
      cases ha : s.armed
      · rw [if_neg (by simp), if_neg (by simp [ha])]
        exact ih hσ' hfg' hr
      · rw [if_pos (by simp), if_pos (by simp [ha])]
        exact ih (s := takeTick s) hσ' hfg' hr

end Sys2Proof.Machine
end

