-- ==== Sys2Proof/Tests/Slice0.lean ====
section
/-! SUPPORT. Tests: expected values are written out from spec/, mostly from 95_test_vectors.md (its labels stand beside them); and one witness for the hypotheses of each statement that has some. -/

namespace Sys2Proof.Tests

open Sys2Proof Sys2Proof.Machine

/-! ### Helpers -/

/-- A small state: pins low, no line high, no cell pressed, silent, no key held, an empty stream. -/
def base : State where
  addr := 0#3
  en := false
  data := false
  settle := 0
  outl := 0#5
  km := 0xFFFFFFFF#32
  kp := false
  css := 0#32
  note := none
  acc := 0#32
  audio := 0#8
  armed := false
  led := false
  key := 0#12
  fgpc := 0
  prog := []
  loop := []
  rest := []
  draws := 0
  sched := []

/-- The pins of `base` set as a vector of 95_test_vectors.md 2.2 gives them; `outl` bit k is line 3 + k. -/
def bus (en : Bool) (a : MuxAddr) (d : Bool) (settle : Fin 4) (outl : BitVec 5) : State :=
  { base with en := en, addr := a, data := d, settle := settle, outl := outl }

/-- What `f` reads in the state an outcome answers with, if it answers with one. -/
def seen {α : Type} (f : State → α) : Host.Outcome State Fault Refusal → Option α
  | .next t => some (f t)
  | _ => none

/-- `EN ADDR DATA SETTLE`. -/
def pins (t : State) : Bool × Nat × Bool × Nat := (t.en, t.addr.toNat, t.data, t.settle.val)

/-- Why an outcome is a refusal, if it is one. -/
def why : Host.Outcome State Fault Refusal → Option Refusal
  | .refused r => some r
  | _ => none

/-- `r`'s cells of `KM`, column 0 first. -/
def cells (r : Nat) (t : State) : List Bool := (List.range 4).map (fun c => t.km.getLsbD (4 * r + c))

/-! ### Well-formedness: an ill-formed term for each check (30_encoding.md R50) -/

theorem test_smp_3_ill_formed : (Instr.smp 3#3).wf = false := by decide
theorem test_scanrow_3_ill_formed : (Instr.scanrow 3#3).wf = false := by decide
theorem test_rsvi_12_ill_formed : (Instr.rsvi 12#4).wf = false := by decide
theorem test_keydn_12_ill_formed : (Instr.keydn 12#4).wf = false := by decide
theorem test_keyup_15_ill_formed : (Instr.keyup 15#4).wf = false := by decide
theorem test_last_legal_operands :
    (Instr.smp 2#3).wf = true ∧ (Instr.rsvi 11#4).wf = true ∧ (Instr.adr 7#3).wf = true := by decide

/-! ### Decoding: words written out bit by bit from 30_encoding.md R48 -/

theorem test_decode_atomics :
    decode 0b00000000#8 = .ok .enl ∧ decode 0b00000001#8 = .ok .enh ∧ decode 0b00000011#8 = .ok (.dat true) ∧
    decode 0b00000100#8 = .ok .dly2 ∧ decode 0b00000101#8 = .ok .dly3 ∧ decode 0b00000110#8 = .ok .wait100 ∧
    decode 0b00001101#8 = .ok (.adr 5#3) ∧ decode 0b00010010#8 = .ok (.smp 2#3) ∧
    decode 0b00011000#8 = .ok .kmnew ∧ decode 0b00011001#8 = .ok .rsvb ∧ decode 0b00011010#8 = .ok .rsve ∧
    decode 0b00011011#8 = .ok .ledt ∧ decode 0b00011100#8 = .ok .arm ∧
    decode 0b00101001#8 = .ok (.rsvi 9#4) := by decide

theorem test_decode_composites :
    decode 0b01000110#8 = .ok (.selrow 6#3) ∧ decode 0b01001001#8 = .ok (.scanrow 1#3) ∧
    decode 0b01010100#8 = .ok (.setout 4#3 false) ∧ decode 0b01011100#8 = .ok (.setout 4#3 true) ∧
    decode 0b01100000#8 = .ok .resolve ∧ decode 0b01100001#8 = .ok .scan ∧ decode 0b01100010#8 = .ok .startup ∧
    decode 0b01100011#8 = .ok .fgiter := by decide

theorem test_decode_events :
    decode 0b10000000#8 = .ok .tick ∧ decode 0b10000001#8 = .ok .reset ∧
    decode 0b10010110#8 = .ok (.keydn 6#4) ∧ decode 0b10101011#8 = .ok (.keyup 11#4) := by decide

/-- The count check of 2.1: 92 accepted words, 22 reserved operands, 142 reserved words. -/
theorem test_count_check :
    let words := (List.range 256).map (BitVec.ofNat 8)
    (words.filter (fun w => decode w = .error .reservedOperand)).length = 22 ∧
      (words.filter (fun w => decode w = .error .reservedWord)).length = 142 := by decide +kernel

/-- 2.1: refused words at the edges of the reserved ranges. -/
theorem test_reserved_edges :
    decode 0x07#8 = .error .reservedWord ∧ decode 0x1D#8 = .error .reservedWord ∧
    decode 0x64#8 = .error .reservedWord ∧ decode 0x82#8 = .error .reservedWord ∧
    decode 0xB0#8 = .error .reservedWord ∧ decode 0x13#8 = .error .reservedOperand ∧
    decode 0x4B#8 = .error .reservedOperand ∧ decode 0x2C#8 = .error .reservedOperand ∧
    decode 0x9C#8 = .error .reservedOperand ∧ decode 0xAC#8 = .error .reservedOperand := by decide

/-- P1, expanded: `00 0C 02 01 04 00  00 0C 03 01 04 00  00 0B 03 01 04 00`. -/
theorem test_startup_words : startupSteps.map encode =
    [0x00#8, 0x0C#8, 0x02#8, 0x01#8, 0x04#8, 0x00#8, 0x00#8, 0x0C#8, 0x03#8, 0x01#8, 0x04#8, 0x00#8,
     0x00#8, 0x0B#8, 0x03#8, 0x01#8, 0x04#8, 0x00#8] := by decide

/-- P2: `SCAN` expanded, 27 atomic steps. -/
theorem test_scan_words : scanSteps.map encode =
    [0x18#8, 0x08#8, 0x01#8, 0x05#8, 0x10#8, 0x09#8, 0x01#8, 0x05#8, 0x11#8, 0x0A#8, 0x01#8, 0x05#8, 0x12#8] ++
    [0x19#8, 0x20#8, 0x21#8, 0x22#8, 0x23#8, 0x24#8, 0x25#8, 0x26#8, 0x27#8, 0x28#8, 0x29#8, 0x2A#8, 0x2B#8,
     0x1A#8] := by decide

/-- P6: `FGITER` = `06 61 1B`, its scan expanded. -/
theorem test_fgiter_words : fgiterSteps.map encode = [0x06#8] ++ scanSteps.map encode ++ [0x1B#8] := by decide

/-- R53, R54: shorthand and pseudo-operations, and the words of R136. -/
theorem test_listings :
    (Listing.repeated 3 (.command .tick .done) (.command .arm .done)).assemble = [0x80#8, 0x80#8, 0x80#8, 0x1C#8] ∧
    (pulse 4#3).map encode = [0x54#8, 0x5C#8] ∧ (press 2#4).map encode = [0x92#8] ∧
    (release 9#4).map encode = [0xA9#8] ∧
    bootListing.1.assemble = [0x62#8, 0x1C#8] ∧ bootListing.2.assemble = [0x63#8] := by decide

/-! ### The mux bus, 2.2 -/

/-- M1 and M2. -/
theorem test_enl :
    seen (fun t => (pins t, t.outl)) (exec .enl (bus true 4#3 false 2 0#5)) = some ((false, 4, false, 0), 0#5) ∧
    seen (fun t => (pins t, t.outl)) (exec .enl (bus false 4#3 false 3 2#5)) = some ((false, 4, false, 0), 2#5) := by
  decide

/-- M4: row 1 selected, no line changes. -/
theorem test_enh_row :
    seen (fun t => (pins t, t.outl)) (exec .enh (bus false 1#3 true 3 3#5)) = some ((true, 1, true, 0), 3#5) := by decide

/-- M3: the addressed line is in transition, its neighbours keep their levels. -/
theorem test_enh_line :
    seen pins (exec .enh (bus false 4#3 true 0 5#5)) = some (true, 4, true, 0) ∧
    seen (fun t => (t.line 0, t.line 2)) (exec .enh (bus false 4#3 true 0 5#5)) = some (true, true) := by
  refine ⟨by decide, ?_⟩
  have h0 : (driveEnable true (bus false 4#3 true 0 5#5)).line 0 = true := busTouch_line_other (by decide)
  have h2 : (driveEnable true (bus false 4#3 true 0 5#5)).line 2 = true := busTouch_line_other (by decide)
  exact congrArg some (Prod.ext h0 h2)

/-- M5. -/
theorem test_adr_row :
    seen (fun t => (pins t, t.outl)) (exec (.adr 1#3) (bus true 0#3 true 3 3#5)) =
      some ((true, 1, true, 0), 3#5) := by decide

/-- M7: line 3 in transition, line 4 as before. -/
theorem test_adr_line :
    seen (fun t => t.line 1) (exec (.adr 3#3) (bus true 2#3 true 3 3#5)) = some true := by
  have h : (driveAddress 3#3 (bus true 2#3 true 3 3#5)).line 1 = true := busTouch_line_other (by decide)
  exact congrArg some h

/-- M9: enable low, no line changes. -/
theorem test_dat :
    seen (fun t => (pins t, t.outl)) (exec (.dat false) (bus false 4#3 true 0 1#5)) =
      some ((false, 4, false, 0), 1#5) := by decide

/-- M8: the line settles to the data level. -/
theorem test_dly2_settles :
    seen (fun t => (pins t, t.outl)) (exec .dly2 (bus true 3#3 true 0 2#5)) = some ((true, 3, true, 2), 3#5) := by decide

/-- M13 and M14: two microseconds, then saturated at three. -/
theorem test_dly2_saturates :
    seen pins (exec .dly2 (bus true 1#3 true 0 3#5)) = some (true, 1, true, 2) ∧
    seen pins (exec .dly2 (bus true 1#3 true 2 3#5)) = some (true, 1, true, 3) := by decide

/-- M16: enable low, only `SETTLE`. -/
theorem test_dly3 :
    seen (fun t => (pins t, t.outl)) (exec .dly3 (bus false 5#3 false 0 3#5)) = some ((false, 5, false, 3), 3#5) := by
  decide

/-- F4: the driven line takes the data level. -/
theorem test_wait100 :
    seen (fun t => (t.settle.val, t.outl)) (exec .wait100 (bus true 4#3 true 0 0#5)) = some (3, 2#5) := by decide

/-- S5, first step: `ADR 5` drives binary 101, and `ENH` is next. -/
theorem test_selrow :
    seen (fun t => (pins t, addressLine t 0, addressLine t 1, addressLine t 2, t.rest))
      (exec (.selrow 5#3) (bus false 0#3 true 3 0#5)) =
      some ((false, 5, true, 0), true, false, true, [0x01#8]) := by decide

/-- R66, first step: `ENL`, with `ADR; DAT; ENH; DLY2; ENL` next. -/
theorem test_setout :
    seen (fun t => (t.en, t.rest)) (exec (.setout 5#3 true) (bus true 0#3 true 3 0#5)) =
      some (false, [0x0D#8, 0x03#8, 0x01#8, 0x04#8, 0x00#8]) := by decide

/-! ### The scanner, 2.3 -/

/-- K1: what is not the matrix stays. -/
theorem test_kmnew : seen (fun t => (t.kp, t.css, t.draws)) (exec .kmnew base) = some (false, 0#32, 1) := by decide

/-- K2: key 5 held, row 1 settled: `KM[4..7] = 1,0,1,1`. -/
theorem test_smp :
    seen (cells 1) (exec (.smp 1#3) { bus true 1#3 false 3 0#5 with key := 0x020#12 }) =
      some [true, false, true, true] := by decide

/-- K8: cells by the operand, keys by the bus. -/
theorem test_smp_by_operand :
    seen (fun t => (cells 2 t, cells 0 t)) (exec (.smp 2#3) { bus true 0#3 false 3 0#5 with key := 0x002#12 }) =
      some ([true, false, true, true], [true, true, true, true]) := by decide

/-- K9. -/
theorem test_rsvb :
    seen (fun t => (t.kp, t.css, t.note)) (exec .rsvb { base with kp := true, css := 7#32, note := some 3 }) =
      some (false, 7#32, some 3) := by decide

/-- K10: the step itself is `STEP[5]`, whatever that is. -/
theorem test_rsvi_pressed :
    seen (fun t => (t.css, t.note, t.kp)) (exec (.rsvi 5#4) { base with km := 0xFFFFFFDF#32 }) =
      some (Config.stepSize 5, some 5, true) := rfl

/-- K11. -/
theorem test_rsvi_released :
    seen (fun t => (t.css, t.note, t.kp)) (exec (.rsvi 5#4) { base with css := 7#32, note := some 3 }) =
      some (7#32, some 3, false) := by decide

/-- K13. -/
theorem test_rsve_none :
    seen (fun t => (t.css, t.note)) (exec .rsve { base with css := 7#32, note := some 5 }) = some (0#32, none) := by
  decide

/-- K14. -/
theorem test_rsve_pressed :
    seen (fun t => (t.css, t.note)) (exec .rsve { base with kp := true, css := 7#32, note := some 5 }) =
      some (7#32, some 5) := by decide

/-- R78, first step: `ADR 1`, with `ENH; DLY3; SMP 1` next. -/
theorem test_scanrow :
    seen (fun t => (pins t, t.rest)) (exec (.scanrow 1#3) (bus true 2#3 true 3 0#5)) =
      some ((true, 1, true, 0), [0x01#8, 0x05#8, 0x11#8]) := by decide

/-- K22: keys 2 and 5 held: `KM[0..3] = 1,1,0,1` after the four steps. -/
theorem test_scanrow_whole :
    seen (fun t => (pins t, cells 0 t))
      (runUnder (fgTurns 4) { base with key := 0x024#12, rest := [0x48#8] }) =
      some ((true, 0, false, 3), [true, true, false, true]) := by decide

/-- R82, first step: the flag falls, twelve passes and the end are next. -/
theorem test_resolve :
    seen (fun t => (t.kp, t.rest.length, t.rest.head?)) (exec .resolve { base with kp := true }) =
      some (false, 13, some 0x20#8) := by decide

/-- R83, first step: `KMNEW`, with 26 steps to come. -/
theorem test_scan :
    seen (fun t => (t.draws, t.rest.length, t.rest.head?)) (exec .scan base) = some (1, 26, some 0x08#8) := by decide

/-! ### The note table, 2.4 -/

/-- T1, T2, T3: the reference table. -/
theorem test_reference_table :
    Config.referenceStep 0 = 0x030B5BD9#32 ∧ Config.referenceStep 5 = 0x041051B4#32 ∧
    Config.referenceStep 9 = 0x051EB852#32 ∧ Config.referenceStep 11 = 0x05BF3BC4#32 := by decide

/-- T6: `round(440 * 2^32 / 22000) = 85899346` (R97). -/
theorem test_step_formula :
    (2 * 440 * 2 ^ 32 + Config.sampleRate) / (2 * Config.sampleRate) = (Config.referenceStep 9).toNat := by decide

/-! ### The oscillator and the clock, 2.5 -/

/-- One tick from `acc` with step `css`. -/
def ticked (acc css : StepSize) : Option (StepSize × OutWord) :=
  seen (fun t => (t.acc, t.audio)) (exec .tick { base with armed := true, acc := acc, css := css })

/-- O5, O7, O8. -/
theorem test_tick_wraps_and_carries :
    ticked 0xFFFFFFFF#32 0x00000001#32 = some (0x00000000#32, 0#8) ∧
    ticked 0x7EFFFFFF#32 0x00000001#32 = some (0x7F000000#32, 127#8) ∧
    ticked 0xFFFFFFFF#32 0xFFFFFFFF#32 = some (0xFFFFFFFE#32, 255#8) := by decide

/-- O9, O10, O12. -/
theorem test_tick_values :
    ticked 0x12345678#32 0x030B5BD9#32 = some (0x153FB251#32, 21#8) ∧
    ticked 0x00000000#32 0x80000000#32 = some (0x80000000#32, 128#8) ∧
    ticked 0x00FFFFFF#32 0x00000000#32 = some (0x00FFFFFF#32, 0#8) := by decide

/-- The pure functions of 2.5, S7. -/
theorem test_sample_and_emit :
    (sampleOf 0x00000000#32).toInt = -128 ∧ (sampleOf 0x7FFFFFFF#32).toInt = -1 ∧
    (sampleOf 0x80000000#32).toInt = 0 ∧ (sampleOf 0xFFFFFFFF#32).toInt = 127 ∧
    emit (BitVec.ofInt 8 (-128)) = 0#8 ∧ emit (BitVec.ofInt 8 (-1)) = 127#8 ∧ emit 0#8 = 128#8 ∧
    emit 127#8 = 255#8 ∧ toS8 0x7F#8 = 0xFF#8 ∧ toS8 0x80#8 = 0x00#8 := by decide

/-- A tick before arming describes no run (2.5). -/
theorem test_tick_unarmed : why (exec .tick base) = some .tickNotArmed := by decide

/-- R120. -/
theorem test_arm : seen (fun t => (t.armed, t.fgpc)) (exec .arm base) = some (true, 1) := by decide

/-! ### The foreground, events, reset: 2.6, 2.7 -/

/-- F1 and F2. -/
theorem test_ledt :
    seen (fun t => t.led) (exec .ledt base) = some true ∧
    seen (fun t => t.led) (exec .ledt { base with led := true }) = some false := by decide

/-- R135, first step. -/
theorem test_startup :
    seen (fun t => (t.en, t.rest.length, t.rest.head?)) (exec .startup (bus true 7#3 true 0 0#5)) =
      some (false, 17, some 0x0C#8) := by decide

/-- F3, as the first step of `FGITER` (R137), with 28 to come. -/
theorem test_fgiter :
    seen (fun t => (pins t, t.rest.length, t.rest.getLast?)) (exec .fgiter (bus true 2#3 false 0 0#5)) =
      some ((true, 2, false, 3), 28, some 0x1B#8) := by decide

/-- F5 and F6. -/
theorem test_keydn :
    seen (fun t => (t.key, t.fgpc)) (exec (.keydn 7#4) base) = some (0x080#12, 0) ∧
    seen (fun t => t.key) (exec (.keydn 7#4) { base with key := 0x081#12 }) = some 0x081#12 := by decide

/-- F7. -/
theorem test_keyup :
    seen (fun t => t.key) (exec (.keyup 7#4) { base with key := 0x081#12 }) = some 0x001#12 := by decide

/-- Z1: the elements with a reset value; the keys stay. -/
theorem test_reset :
    let s := { base with acc := 5#32, css := 7#32, armed := true, note := some 3, settle := 2, key := 0x081#12 }
    seen (fun t => (t.acc, t.css, t.armed)) (exec .reset s) = some (0#32, 0#32, false) ∧
      seen (fun t => (t.note, t.settle, t.key)) (exec .reset s) = some (none, 0, 0x081#12) := by decide

/-- P5 (c): `STARTUP; ARM; 07` stops at the reserved word; here from the word on. `13` is a reserved operand. -/
theorem test_reserved_words_stop :
    why (step { base with rest := [0x07#8] }) = some .reservedWord ∧
    why (step { base with rest := [0x13#8] }) = some .reservedOperand := by decide

/-- K23, its last two words: with key 2 released before `SMP 0`, `KM[0..3] = 1,1,1,1`. -/
theorem test_release_before_sample :
    seen (cells 0) (runUnder (fgTurns 2) { bus true 0#3 false 3 0#5 with key := 0x004#12, rest := [0xA2#8, 0x10#8] }) =
      some [true, true, true, true] := by decide

/-- R53: `ARM; LOOP { TICK }` ticks at every turn of FG after the first: three ticks of step 2^24. -/
theorem test_loop_of_events :
    seen (fun t => (t.acc, t.audio)) (runUnder (fgTurns 4) (loadStream [0x1C#8] [0x80#8] { base with css := 0x01000000#32 })) =
      some (0x03000000#32, 3#8) := by decide

/-- P6, its first words `81 90`: the words after the reset are executed (95_test_vectors.md P6). -/
theorem test_reset_word_first :
    seen (fun t => (t.key, t.fgpc, t.rest)) (runUnder (fgTurns 2) (loadStream [0x81#8, 0x90#8, 0x62#8] [] base)) =
      some (0x001#12, 0, [0x62#8]) := by decide

/-- R175: after `ARM; RESET` FG is at `ARM` again, and executes it. -/
theorem test_reset_word_restarts :
    seen (fun t => (t.armed, t.fgpc, t.rest)) (runUnder (fgTurns 2) (loadStream [0x1C#8, 0x81#8, 0x1B#8] [] base)) =
      some (false, 0, [0x1C#8, 0x1B#8]) ∧
    seen (fun t => (t.armed, t.fgpc)) (runUnder (fgTurns 3) (loadStream [0x1C#8, 0x81#8, 0x1B#8] [] base)) =
      some (true, 1) := by decide

/-- R49, R50: a reset turn leaves a refused word where it stands. -/
theorem test_reset_turn_keeps_refused_words :
    why (runUnder [.reset, .fg, .fg] (loadStream [0x00#8, 0xB0#8, 0x01#8] [] base)) = some .reservedWord ∧
    why (runUnder [.fg, .reset, .fg, .fg] (loadStream [0x00#8, 0x9C#8, 0x01#8] [] base)) = some .reservedOperand := by
  decide

/-- The first step after reset is `ENL` of `STARTUP` (R136). -/
theorem test_first_step : seen (fun t => (t.en, t.fgpc, t.rest.length)) (step State.reset) = some (false, 1, 18) := by
  decide

/-- The host's placement of a word: `RSVI 11`, and `TICK`, which finds the clock armed. -/
theorem test_with_fetch_word :
    decodeTableWord 8 0x2B = some (.rsvi 11#4) ∧ decodeTableWord 8 0x30 = none ∧
    seen (fun t => t.fgpc) (step (State.reset.withFetchWord 8 0x2B)) = some 1 ∧
    seen (fun t => t.acc) (step (State.reset.withFetchWord 8 0x80)) = some 0#32 := by decide

/-- R141: what the display reads. -/
theorem test_display :
    (displayView { base with km := 0xFFFFF7FB#32, note := some 11 }).1 = 0x7FB#12 ∧
    (displayView { base with note := none }).2.2 = none := by decide

/-! ### Witnesses: the hypotheses of the statements can be met -/

/-- `base` about to execute the words `ws` with the turns `σ` scheduled. -/
def about (ws : List CommandWord) (σ : List Turn) : State := { base with rest := ws, sched := σ, armed := true }

theorem witness_DecodeEncodeAgree :
    (Instr.scanrow 2#3).wf = true ∧ (Instr.setout 7#3 true).wf = true ∧ (Instr.keyup 11#4).wf = true := by decide

theorem witness_EncodeDecodeAgree : decode 0x5B#8 = .ok (.setout 3#3 true) ∧ decode 0xAB#8 = .ok (.keyup 11#4) := by
  decide

theorem witness_ReservedWordsRefused :
    (about [0xB0#8] []).rest = [0xB0#8] ∧ (about [0xB0#8] []).sched = [] ∧ decode 0xB0#8 = .error .reservedWord ∧
    (about [0x07#8] [.fg, .sc]).sched = [.fg, .sc] ∧ decode 0x07#8 = .error .reservedWord := by decide

theorem witness_ReservedOperandsRefused :
    (about [0x17#8] [.fg]).rest = [0x17#8] ∧ (about [0x17#8] [.fg]).sched = [.fg] ∧
    decode 0x17#8 = .error .reservedOperand ∧ decode 0xAF#8 = .error .reservedOperand := by decide

theorem witness_ReservedOperandTermsRefused :
    3 ≤ (3#3).toNat ∧ 3 ≤ (7#3).toNat ∧ 12 ≤ (12#4).toNat ∧ 12 ≤ (15#4).toNat := by decide

theorem witness_StepRunsTheDecodedCommand :
    (about [0x20#8, 0x1A#8] []).rest = 0x20#8 :: [0x1A#8] ∧ decode 0x20#8 = .ok (.rsvi 0#4) ∧
    (about [0x20#8, 0x1A#8] []).sched = [] ∧ (about [0x20#8, 0x1A#8] [.fg, .sc]).sched = .fg :: [.sc] := by decide

theorem witness_OtherTurnsRunTheirEvents :
    ((about [] [.sc]).sched = .sc :: [] ∧ (about [] [.sc]).armed = true) ∧
    (({ base with sched := [.sc] } : State).sched = .sc :: [] ∧ ({ base with sched := [.sc] } : State).armed = false) ∧
    (about [] [.keydn 11, .fg]).sched = .keydn 11 :: [.fg] ∧ (about [] [.keyup 0]).sched = .keyup 0 :: [] ∧
    (about [] [.reset]).sched = .reset :: [] := by decide

theorem witness_FinishedStreamEnds :
    (about [] []).rest = [] ∧ (about [] []).loop = [] ∧ (about [] []).sched = [] ∧ (about [] [.fg]).sched = .fg :: [] := by
  decide

theorem witness_PlacedWordIsRunNext :
    decodeTableWord 8 0x80 = some .tick ∧ decodeTableWord 8 0x63 = some .fgiter := by decide

theorem witness_PositionAdvancesOrLoops :
    hasForeground [0x1B#8] = true ∧ hasForeground ([] : List CommandWord) = false ∧ hasForeground [0x80#8] = false ∧
    hasForeground [0x63#8] = true ∧ (loadStream [] [0x80#8, 0x1B#8] base).rest = [] ∧
    (loadStream [] [0x80#8, 0x1B#8] base).loop = 0x80#8 :: [0x1B#8] ∧ decode 0x80#8 = .ok .tick ∧
    (loadStream [] [0x80#8, 0x1B#8] (about [] [.fg])).sched = .fg :: [] := by decide

theorem witness_CompositeStandsForItsSteps :
    (Instr.scanrow 2#3).kind = .composite ∧ (Instr.scanrow 2#3).wf = true ∧ Instr.fgiter.kind = .composite := by decide

theorem witness_DelaysLetTheBusSettle :
    (Instr.wait100, 100000) ∈ [(Instr.dly2, 2), (Instr.dly3, 3), (Instr.wait100, 100000)] := by decide

theorem witness_PulseIsTwoStrobeCycles :
    (about [0x54#8, 0x5C#8, 0x80#8] []).rest = (pulse 4#3).map encode ++ [0x80#8] ∧ (4#3).toNat = 3 + (1 : Fin 5).val := by
  decide

theorem witness_SmpSamplesTheSelectedRow :
    (2#3).toNat = (2 : Fin 3).val ∧ (bus true 0#3 false 3 0#5).en = true ∧
    (bus true 0#3 false 3 0#5).addr.toNat = (0 : Fin 3).val ∧ (bus true 0#3 false 3 0#5).settle.val = 3 ∧
    (11 / 4 : Nat) = (2 : Fin 3).val ∧ (12 / 4 : Nat) ≠ (2 : Fin 3).val := by decide

theorem witness_RsviTakesAPressedCell :
    (11#4).toNat = (11 : Fin 12).val ∧ ({ base with km := 0xFFFFF7FF#32 } : State).km.getLsbD 11 = false ∧
    base.km.getLsbD 11 = true ∧ 12 ≤ (12#4).toNat := by decide

theorem witness_RsveSilencesWhenNonePressed :
    base.kp = false ∧ ({ base with kp := true } : State).kp = true := by decide

theorem witness_ScanrowSamplesItsRow : (0#3).toNat = (0 : Fin 3).val ∧ (2#3).toNat = (2 : Fin 3).val := by decide

/-- Both cases of a resolution occur: no cell pressed, and cells 2 and 5 pressed with 5 the highest. -/
theorem witness_ResolveTakesTheHighestPressedCell :
    (∀ i, base.pressed i = false) ∧ ({ base with km := 0xFFFFFFDB#32 } : State).pressed 5 = true ∧
    ∀ i, ({ base with km := 0xFFFFFFDB#32 } : State).pressed i = true → i ≤ 5 := by decide

theorem witness_ScanSoundsTheHighestHeldKey :
    (∀ i, base.held i = false) ∧ ({ base with key := 0x801#12 } : State).held 11 = true ∧
    ∀ i, ({ base with key := 0x801#12 } : State).held i = true → i ≤ 11 := by decide

theorem witness_RowOrderMakesNoDifference :
    [2#3, 0#3, 1#3].Perm [0#3, 1#3, 2#3] ∧ (about [0x4A#8, 0x48#8, 0x49#8, 0x60#8, 0x1B#8] []).rest =
      ([2#3, 0#3, 1#3].map Instr.scanrow ++ [Instr.resolve]).map encode ++ [0x1B#8] := by decide

theorem witness_ArtifactCellsAreNeverRead :
    (∀ j, j < 12 → (0x00000FFF#32).getLsbD j = base.km.getLsbD j) ∧ ∃ t, exec (.rsvi 11#4) base = .next t :=
  ⟨by decide, _, rfl⟩

/-- For `SMP`: row 1 is settled, and the keys differ in the other rows only; and no row is settled. -/
theorem witness_KeysReachTheCoreOnlyBySampling :
    (Instr.scan.agent ≠ .env ∧ (∀ r, Instr.scan ≠ .smp r) ∧ ∃ t, exec .scan base = .next t) ∧
    (settledRow (bus true 1#3 false 3 0#5) = some 1 ∧
      (∀ q c, settledRow (bus true 1#3 false 3 0#5) = some q →
        (0xF0F#12).getLsbD (cellIndex q c).val = (bus true 1#3 false 3 0#5).held (cellIndex q c)) ∧
      ∃ t, exec (.smp 1#3) (bus true 1#3 false 3 0#5) = .next t) ∧
    settledRow (bus true 1#3 false 2 0#5) = none ∧ ∃ t, exec (.smp 1#3) (bus true 1#3 false 2 0#5) = .next t :=
  ⟨⟨by decide, fun _ => nofun, _, rfl⟩, ⟨by decide, by decide, _, rfl⟩, by decide, _, rfl⟩

theorem witness_TickAdvancesAndEmits : (about [] []).armed = true ∧ base.armed = false := by decide

theorem witness_TickBeforeArmingIsRefused : base.armed = false := by decide

theorem witness_ArmStartsTheClock :
    Instr.ledt ≠ .reset ∧ (about [] []).armed = true ∧ ∃ t, exec .ledt (about [] []) = .next t :=
  ⟨by decide, rfl, _, rfl⟩

theorem witness_TicksAddUp : (about [] []).armed = true := by decide

/-- The period of a half-range step is two ticks, and one tick is no period (O10, O11). -/
theorem witness_SawtoothPeriod :
    (about [] []).armed = true ∧ 2 ^ 32 ∣ 2 * (0x80000000#32).toNat ∧ ¬ 2 ^ 32 ∣ 1 * (0x80000000#32).toNat := by decide

theorem witness_ReleaseHoldsThePhase :
    (about [0x61#8] []).armed = true ∧ (∀ i, (about [0x61#8] []).held i = false) ∧
    (about [0x61#8] []).rest = encode .scan :: [] := by decide

theorem witness_OnlyResetDisarms :
    (∃ t, step (about [] [.reset]) = .next t ∧ (about [] [.reset]).armed = true ∧ t.armed = false) ∧
    ∃ t, step (about [0x81#8] []) = .next t ∧ (about [0x81#8] []).armed = true ∧ t.armed = false :=
  ⟨⟨_, rfl, rfl, rfl⟩, _, rfl, rfl, rfl⟩

theorem witness_KeyEventsMoveOneKey :
    (0#4).toNat = (0 : Fin 12).val ∧ (11#4).toNat = (11 : Fin 12).val ∧ base.held 11 = false := by decide

theorem witness_StepsWriteOnlyTheirElements :
    (Instr.adr 3#3).kind ≠ .composite ∧ Instr.adr 3#3 ≠ .reset ∧ ∃ t, exec (.adr 3#3) base = .next t :=
  ⟨by decide, by decide, _, rfl⟩

theorem witness_TickCommutesUnlessCssIsWritten :
    (about [] []).armed = true ∧ Instr.enh ≠ .reset ∧ Instr.enh ≠ .rsve ∧ (∀ n, Instr.enh ≠ .rsvi n) ∧
    ∃ t, exec .enh (about [] []) = .next t :=
  ⟨rfl, by decide, by decide, fun _ => nofun, _, rfl⟩

theorem witness_TicksAreInvisibleToTheForeground :
    (∃ t, step ((about [0x1B#8] []).under [.fg, .sc]) = .next t) ∧ (∃ t, step ((about [0x1B#8] []).under [.sc]) = .next t) ∧
    ∃ u, runUnder [.sc, .fg, .keydn 3, .sc] (about [0x1B#8] []) = .next u := ⟨⟨_, rfl⟩, ⟨_, rfl⟩, _, rfl⟩

theorem witness_IntermediateStepSizeIsHeard :
    (2#4).toNat = (2 : Fin 12).val ∧ ({ about [] [] with km := 0xFFFFFFFB#32 } : State).km.getLsbD 2 = false ∧
    ({ about [] [] with km := 0xFFFFFFFB#32 } : State).armed = true := by decide

theorem witness_ResolutionShowsOnlyWholeSteps :
    (about [0x60#8] []).rest = encode .resolve :: [] ∧ OnlyTicks [.sc, .fg, .sc, .fg] ∧
    [Turn.sc, .fg, .sc, .fg].count .fg ≤ 14 := ⟨rfl, by unfold OnlyTicks; decide, by decide⟩

theorem witness_ScanUnderPreemption :
    (about [0x61#8] []).rest = encode .scan :: [] ∧ OnlyTicks (Turn.sc :: fgTurns 27 ++ [Turn.sc]) ∧
    (Turn.sc :: fgTurns 27 ++ [Turn.sc]).count .fg = 27 := ⟨rfl, by unfold OnlyTicks; decide, by decide⟩

theorem witness_NoteStaysInStepWithCss :
    NoteInStep (about [0x20#8] []) ∧ ∃ t, step (about [0x20#8] []) = .next t :=
  ⟨⟨fun _ => rfl, fun _ => nofun⟩, _, rfl⟩

/-- A line that is driven, settled and at the data level; the step moves the data under it. -/
theorem witness_DrivenLineStaysSettled :
    LineSettled { bus true 4#3 true 3 2#5 with rest := [0x02#8] } ∧
    drivenLine (bus true 4#3 true 3 2#5) = some 1 ∧
    ∃ t, step { bus true 4#3 true 3 2#5 with rest := [0x02#8] } = .next t :=
  ⟨by unfold LineSettled; decide, by decide, _, rfl⟩

/-- In the straight part, about to execute a composite with an event word before it. -/
theorem witness_PositionStaysInStep :
    PositionInStep { about [0x97#8, 0x41#8] [] with prog := [0x97#8, 0x41#8] } ∧
    ∃ t, step { about [0x97#8, 0x41#8] [] with prog := [0x97#8, 0x41#8] } = .next t :=
  ⟨⟨[], .inl rfl, Nat.zero_le _, rfl⟩, _, rfl⟩

/-- Reset leaves a program that goes on for ever (R136). -/
theorem witness_BootProgramNeverStops : OwnCommands State.reset ∧ OwnCommands (loadStream [] [0x1B#8] base) := by
  unfold OwnCommands
  refine ⟨⟨by decide, fun w hw => ?_⟩, by decide, fun w hw => ?_⟩
  · have h : w = 0x62#8 ∨ w = 0x1C#8 ∨ w = 0x63#8 := by
      revert w
      decide
    rcases h with rfl | rfl | rfl
    · exact ⟨.startup, rfl, rfl⟩
    · exact ⟨.arm, rfl, rfl⟩
    · exact ⟨.fgiter, rfl, rfl⟩
  · have h : w = 0x1B#8 := by
      revert w
      decide
    subst h
    exact ⟨.ledt, rfl, rfl⟩

/-- Reset is a state at a boot step, the one before the first. -/
theorem reset_atBootStep : AtBootStep State.reset where
  prog := rfl
  loop := rfl
  own := witness_BootProgramNeverStops.1
  position := ⟨[], .inl rfl, Nat.zero_le _, rfl⟩
  armed := rfl
  strobe h _ := absurd h (by decide)
  addrReset h _ := absurd h (by decide)
  addrPower h _ := absurd h (by decide)
  dataAssert h _ := absurd h (by decide)
  dataRelease h := absurd h (by decide)
  resetHeld h _ := absurd h (by decide)
  resetReleased h := absurd h (by decide)
  powered h := absurd h (by decide)
  noLine h := absurd h (by decide)
  rowAddressed h := absurd h (by decide)
  addrLow h := absurd h (by decide)

/-- A boot step of the loop, armed, with the display on: `FGITER` is next. -/
theorem loop_atBootStep : AtBootStep { bus false 3#3 true 0 3#5 with
    armed := true, fgpc := 19, prog := bootStraight, loop := bootLoop } where
  prog := rfl
  loop := rfl
  own := by
    unfold OwnCommands
    refine ⟨by decide, fun w hw => witness_BootProgramNeverStops.1.2 w ?_⟩
    have h : w ∈ State.reset.prog ++ State.reset.loop ++ [] := hw
    rw [List.append_nil] at h
    exact List.mem_append_left _ h
  position := ⟨[], .inl rfl, by decide, by decide⟩
  armed := rfl
  strobe _ h := absurd h (by decide)
  addrReset _ h := absurd h (by decide)
  addrPower _ h := absurd h (by decide)
  dataAssert _ h := absurd h (by decide)
  dataRelease _ := rfl
  resetHeld _ h := absurd h (by decide)
  resetReleased _ := by decide
  powered _ := by decide
  noLine _ := by decide
  rowAddressed h := absurd h (by decide)
  addrLow _ := by decide

/-- The boot program arms the clock with its nineteenth step. -/
theorem witness_BootKeepsDisplayOnWhileArmed : (∃ t, step State.reset = .next t) ∧ ∃ t, Reachable t ∧ t.armed = true :=
  ⟨⟨_, rfl⟩, _, ⟨fgTurns 19, rfl⟩, rfl⟩

theorem witness_BootLeavesTheReservedLines :
    (∀ σ, State.reset.sched ≠ .reset :: σ) ∧ (∃ t, step State.reset = .next t) ∧
    Turn.reset ∉ fgTurns 2 ∧ ∃ t, runUnder (fgTurns 2) State.reset = .next t ∧ 2 ≤ t.fgpc :=
  ⟨fun _ => nofun, ⟨_, rfl⟩, by decide, _, rfl, by decide⟩

/-- FG and the clock in turns: a fair schedule without resets; and a step of each kind of turn. -/
theorem witness_BootArmsUnderEveryFairSchedule :
    (State.reset.sched = [] ∧ State.reset.fgpc < 19 ∧ ∃ t, step State.reset = .next t) ∧
    FairSchedule (fun n => if n % 2 = 0 then .fg else .sc) ∧
    ∀ n : Nat, (if n % 2 = 0 then Turn.fg else Turn.sc) ≠ .reset := by
  refine ⟨⟨rfl, by decide, _, rfl⟩, ⟨fun n => ⟨2 * n, by omega, by simp⟩, fun n => ⟨2 * n + 1, by omega, ?_⟩⟩, fun n => ?_⟩
  · exact if_neg (by omega)
  · split <;> decide

end Sys2Proof.Tests
end

section
/-! PROOFS of the family 10_state.md: what every step does to the state as a whole. First the rules that the proofs
cite: what the decoder reads back, what a command that goes on comes to, and what a step keeps. -/

namespace Sys2Proof.Machine

/-! ### The decoder and the atomic steps -/

/-- The decoder accepts well-formed commands only (30_encoding.md R50). -/
theorem wf_of_decode {w : CommandWord} {i : Instr} (h : decode w = .ok i) : i.wf = true := by
  unfold decode at h
  split at h
  · cases h
  · split at h
    · injection h with h
      subst h
      assumption
    · cases h

/-- A word that is accepted is the word of its command (30_encoding.md R55). -/
theorem encode_of_decode {w : CommandWord} {i : Instr} (h : decode w = .ok i) : encode i = w := by
  have hall : ∀ w : CommandWord, (match decode w with | .ok i => encode i == w | .error _ => true) = true := by decide
  have hw := hall w
  rw [h] at hw
  exact eq_of_beq hw

/-- The word of a well-formed command is read back as that command (30_encoding.md R55). -/
theorem decode_encode {i : Instr} (hw : i.wf = true) : decode (encode i) = .ok i := by
  cases i with
  | dat v => cases v <;> rfl
  | adr a => revert a; decide
  | smp r => revert r; decide
  | rsvi n => revert n; decide
  | selrow a => revert a; decide
  | scanrow r => revert r; decide
  | setout a v => revert a v; decide
  | keydn n => revert n; decide
  | keyup n => revert n; decide
  | _ => rfl

theorem atomics_of_atomic {i : Instr} (hk : i.kind = .atomic) : atomics i = [i] := by
  revert hk
  cases i <;> simp [Instr.kind, atomics]

/-- The steps a stream stands for are well-formed atomic steps (30_encoding.md R51). -/
theorem atomic_of_mem_streamSteps {ws : List CommandWord} {j : Instr} (h : j ∈ streamSteps ws) :
    j.kind = .atomic ∧ j.wf = true := by
  obtain ⟨w, -, hj⟩ := List.mem_flatMap.mp h
  unfold wordSteps at hj
  split at hj
  next i hd => exact (Laws.expansion i (wf_of_decode hd)).1 j hj
  next => cases hj

/-- Written out as words, well-formed atomic steps stand for themselves. -/
theorem streamSteps_map_encode {is : List Instr} (h : ∀ j ∈ is, j.kind = .atomic ∧ j.wf = true) :
    streamSteps (is.map encode) = is := by
  induction is with
  | nil => rfl
  | cons j is ih =>
    obtain ⟨hk, hw⟩ := h j (List.mem_cons_self ..)
    rw [List.map_cons, streamSteps_cons, wordSteps_of_decode (decode_encode hw), atomics_of_atomic hk,
      ih fun x hx => h x (List.mem_cons_of_mem _ hx), List.singleton_append]

/-! ### What a command that goes on comes to -/

/-- A tick goes on exactly where the clock is armed (44_sample_rate_timer.md R121). -/
theorem exec_tick_eq_next {s t : State} : exec .tick s = .next t ↔ s.armed = true ∧ t = takeTick s := by
  cases ha : s.armed <;> simp [exec, execTick, ha, eq_comm]

/-- Everything a command can come to: the effect of its first atomic step, with the others left in the stream and FG one
step on, as from every state (30_encoding.md R51); or a tick, a key event or a reset, none of which moves FG. -/
theorem exec_cases {i : Instr} {s t : State} (h : exec i s = .next t) :
    (∃ first more, atomics i = first :: more ∧
        (∀ u, exec i u = .next (advanceFg (effect first (pushSteps more u)))) ∧
        t = advanceFg (effect first (pushSteps more s))) ∨
      (i = .tick ∧ s.armed = true ∧ t = takeTick s) ∨
      (∃ n k v, (i = .keydn n ∧ v = true ∨ i = .keyup n ∧ v = false) ∧ noteOf n = some k ∧ t = setKey k v s) ∨
      (i = .reset ∧ t = applyReset s) := by
  cases i with
  | smp r =>
    cases hr : rowOf r <;> simp only [exec, execSmp, hr] at h <;> cases h
    refine .inl ⟨.smp r, [], rfl, fun u => ?_, ?_⟩ <;> simp only [exec, execSmp, effect, hr] <;> rfl
  | rsvi n =>
    cases hn : noteOf n <;> simp only [exec, execRsvi, hn] at h <;> cases h
    refine .inl ⟨.rsvi n, [], rfl, fun u => ?_, ?_⟩ <;> simp only [exec, execRsvi, effect, hn] <;> rfl
  | scanrow r =>
    cases hr : rowOf r <;> simp only [exec, execScanrow, hr] at h <;> cases h
    refine .inl ⟨_, _, rfl, fun u => ?_, rfl⟩
    simp only [exec, execScanrow, hr]
    rfl
  | tick => exact .inr (.inl ⟨rfl, exec_tick_eq_next.mp h⟩)
  | keydn n =>
    cases hn : noteOf n <;> simp only [exec, execKeydn, hn] at h <;> cases h
    exact .inr (.inr (.inl ⟨n, _, true, .inl ⟨rfl, rfl⟩, hn, rfl⟩))
  | keyup n =>
    cases hn : noteOf n <;> simp only [exec, execKeyup, hn] at h <;> cases h
    exact .inr (.inr (.inl ⟨n, _, false, .inr ⟨rfl, rfl⟩, hn, rfl⟩))
  | reset =>
    cases h
    exact .inr (.inr (.inr ⟨rfl, rfl⟩))
  | _ =>
    cases h
    exact .inl ⟨_, _, rfl, fun _ => rfl, rfl⟩

/-- A condition that does not look at FG's position or the schedule is kept by every step of every agent if the effects
of the atomic steps, the tick, the key events and reset keep it. -/
theorem step_keeps {P : State → Prop}
    (position : ∀ s rest fgpc sched, P s → P { s with rest := rest, fgpc := fgpc, sched := sched })
    (atomic : ∀ i s, P s → P (effect i s)) (tick : ∀ s, P s → P (takeTick s))
    (keyEvent : ∀ k v s, P s → P (setKey k v s)) (reset : ∀ s, P s → P (applyReset s))
    {s t : State} (hs : P s) (h : step s = .next t) : P t := by
  have hunder : ∀ σ, P (s.under σ) := fun σ => position s _ _ _ hs
  obtain ⟨-, w, ws, i, -, -, he⟩ | ⟨σ, -, ⟨-, rfl⟩ | ⟨-, rfl⟩⟩ | ⟨σ, k, v, -, rfl⟩ | ⟨σ, -, rfl⟩ := step_cases h
  · have hu : P (((refill s).withRest ws).under s.sched.tail) := position s _ _ _ hs
    obtain ⟨first, more, -, -, rfl⟩ | ⟨-, -, rfl⟩ | ⟨-, k, v, -, -, rfl⟩ | ⟨-, rfl⟩ := exec_cases he
    · exact position _ _ _ _ (atomic _ _ (position _ _ _ _ hu))
    · exact tick _ hu
    · exact keyEvent _ _ _ hu
    · exact reset _ hu
  · exact hunder σ
  · exact tick _ (hunder σ)
  · exact keyEvent _ _ _ (hunder σ)
  · exact reset _ (hunder σ)

/-! ### What an atomic step writes -/

/-- The atomic steps' part of the state table (10_state.md R26), row by row. -/
theorem effect_rows (i : Instr) (s : State) :
    ((effect i s).addr = s.addr ∨ ∃ a, i = .adr a) ∧
    ((effect i s).en = s.en ∨ i = .enl ∨ i = .enh) ∧
    ((effect i s).data = s.data ∨ ∃ v, i = .dat v) ∧
    ((effect i s).settle = s.settle ∨ i ∈ [.enl, .enh, .dly2, .dly3, .wait100] ∨ (∃ a, i = .adr a) ∨
      ∃ v, i = .dat v) ∧
    ((effect i s).outl = s.outl ∨ i ∈ [.enh, .dly2, .dly3, .wait100] ∨ (∃ a, i = .adr a) ∨ ∃ v, i = .dat v) ∧
    ((effect i s).km = s.km ∨ i = .kmnew ∨ ∃ r, i = .smp r) ∧
    ((effect i s).kp = s.kp ∨ i = .rsvb ∨ ∃ n, i = .rsvi n) ∧
    ((effect i s).css = s.css ∧ (effect i s).note = s.note ∨ i = .rsve ∨ ∃ n, i = .rsvi n) ∧
    ((effect i s).armed = s.armed ∨ i = .arm) ∧
    ((effect i s).led = s.led ∨ i = .ledt) ∧
    (effect i s).key = s.key := by
  cases i with
  | smp r => cases hr : rowOf r <;> simp [effect, hr]
  | rsvi n => cases hn : noteOf n <;> simp [effect, hn]
  | dly2 | dly3 | wait100 =>
    -- the laws of `elapse` are cited for any length of time: left to `simp`, the kernel would compute with 100000
    exact ⟨.inl (elapse_addr _ s), .inl (elapse_en _ s), .inl (elapse_data _ s), .inr (.inl (by simp)),
      .inr (.inl (by simp)), .inl (elapse_km _ s), .inl (elapse_kp _ s), .inl ⟨elapse_css _ s, elapse_note _ s⟩,
      .inl (elapse_armed _ s), .inl (elapse_led _ s), elapse_key _ s⟩
  | enl =>
    have hnone : drivenLine { s with en := false } = none := drivenLine_eq_none.mpr (.inl rfl)
    simp [effect, driveEnable, busTouch_of_none hnone]
  | _ => simp [effect]

/-! ### `NOTE` and `CSS` -/

theorem noteInStep_resolvePass {s : State} (k : Fin 12) (h : NoteInStep s) : NoteInStep (resolvePass k s) := by
  cases hp : s.pressed k
  · simpa [NoteInStep, hp] using h
  · simp [NoteInStep, hp]

theorem noteInStep_endResolution {s : State} (h : NoteInStep s) : NoteInStep (endResolution s) := by
  cases hk : kpNone s.kp
  · simpa [NoteInStep, hk] using h
  · simp [NoteInStep, hk]

/-- Of the atomic steps only a pass and the end of a resolution write `NOTE` or `CSS`, and each writes both. -/
theorem noteInStep_effect (i : Instr) {s : State} (h : NoteInStep s) : NoteInStep (effect i s) := by
  obtain ⟨-, -, -, -, -, -, -, ⟨hcss, hnote⟩ | rfl | ⟨n, rfl⟩, -⟩ := effect_rows i s
  · simpa only [NoteInStep, hcss, hnote] using h
  · exact noteInStep_endResolution h
  · cases hn : noteOf n <;> simp only [effect, hn]
    · exact h
    · exact noteInStep_resolvePass _ h

/-- Settles O53: the effects that write `NOTE` write `CSS` with it, and reset gives both their silent value. -/
theorem noteStaysInStepWithCss : Obligations.NoteStaysInStepWithCss := by
  unfold Obligations.NoteStaysInStepWithCss
  intro s t hs h
  exact step_keeps (fun _ _ _ _ h => h) (fun i _ h => noteInStep_effect i h) (fun _ h => h) (fun _ _ _ h => h)
    (fun _ _ => ⟨fun _ => rfl, nofun⟩) hs h

/-! ### The driven line -/

/-- Where the settle time has just started again there is nothing to say of the driven line. -/
theorem lineSettled_of_settle_zero {s : State} (h : s.settle = 0) : LineSettled s := by
  intro k _ h2
  rw [h] at h2
  exact absurd h2 (by decide)

/-- A delay that completes the settle time gives the driven line the data level (40_mux_controller.md R69). -/
theorem lineSettled_elapse (n : Nat) (s : State) : LineSettled (elapse n s) := by
  intro k hk h2
  have hs : drivenLine s = some k := hk
  rw [elapse_settle, settleAfter_val] at h2
  rw [elapse_of_some n hs]
  unfold State.line
  simp only [if_pos h2]
  exact getLsbD_writeBit_same _ _ _ k.isLt

/-- Every pin write starts the settle time again, every delay settles the line, and no other atomic step touches the
bus. -/
theorem lineSettled_effect (i : Instr) {s : State} (h : LineSettled s) : LineSettled (effect i s) := by
  cases i with
  | enl | enh | dat _ | adr _ => exact lineSettled_of_settle_zero rfl
  | dly2 | dly3 | wait100 => exact lineSettled_elapse _ s
  | smp r => cases hr : rowOf r <;> simp only [effect, hr] <;> exact h
  | rsvi n => cases hn : noteOf n <;> simp only [effect, hn] <;> exact h
  | _ => exact h

/-- Settles O54: only the bus operations touch the bus, and each leaves a line that is settled or in transition. -/
theorem drivenLineStaysSettled : Obligations.DrivenLineStaysSettled := by
  unfold Obligations.DrivenLineStaysSettled
  intro s t hs h
  exact step_keeps (fun _ _ _ _ h => h) (fun i _ h => lineSettled_effect i h) (fun _ h => h) (fun _ _ _ h => h)
    (fun _ _ => lineSettled_of_settle_zero rfl) hs h

/-! ### FG's position -/

/-- At the end of the stream FG is at the first step of the loop body, and the whole pass is still to come. -/
theorem positionInStep_refill {s : State} (h : PositionInStep s) : PositionInStep (refill s) := by
  cases hr : s.rest with
  | nil =>
    rw [refill_of_nil hr]
    exact ⟨streamSteps s.loop, .inr rfl, by simp, by simp⟩
  | cons w ws => rwa [refill_of_cons hr]

/-- Taking an event word off the stream takes no step of FG off it. -/
theorem positionInStep_withRest {s : State} {ws : List CommandWord} (hws : streamSteps s.rest = streamSteps ws)
    (h : PositionInStep s) : PositionInStep (s.withRest ws) := by
  obtain ⟨body, hbody, hle, hrest⟩ := h
  exact ⟨body, hbody, hle, hws.symm.trans hrest⟩

/-- One step of FG is taken off the stream and `FGPC` goes on by one, or, after the last step of a pass, back to the
first step of the loop body (10_state.md R25). -/
theorem positionInStep_advanceFg {s : State} {body : List Instr} {first : Instr}
    (hbody : body = [] ∨ body = streamSteps s.loop)
    (h : (streamSteps s.prog ++ body).drop s.fgpc = first :: streamSteps s.rest) : PositionInStep (advanceFg s) := by
  cases hp : passDone s with
  | true =>
    obtain ⟨hno, -⟩ : hasForeground s.rest = false ∧ hasForeground s.loop = true := by simpa [passDone] using hp
    rw [advanceFg_of_passDone hp]
    exact ⟨[], .inl rfl, by simp, by simp [streamSteps_of_no_foreground hno]⟩
  | false =>
    rw [advanceFg_of_not_passDone hp]
    refine ⟨body, hbody, ?_, ?_⟩
    · have hlen := congrArg List.length h
      rw [List.length_drop, List.length_cons] at hlen
      show s.fgpc + 1 ≤ (streamSteps s.prog ++ body).length
      omega
    · show streamSteps s.rest = (streamSteps s.prog ++ body).drop (s.fgpc + 1)
      rw [← List.tail_drop, h, List.tail_cons]

/-- Reset puts the steps executed in front of those still to come: the program is whole again (log 12). -/
theorem positionInStep_applyReset {s : State} (h : PositionInStep s) : PositionInStep (applyReset s) := by
  obtain ⟨body, hbody, hle, hrest⟩ := h
  have hatomic : ∀ j ∈ (streamSteps s.prog ++ streamSteps s.loop).take s.fgpc, j.kind = .atomic ∧ j.wf = true := by
    intro j hj
    rw [← streamSteps_append] at hj
    exact atomic_of_mem_streamSteps (List.mem_of_mem_take hj)
  have htake : (streamSteps s.prog ++ streamSteps s.loop).take s.fgpc = (streamSteps s.prog ++ body).take s.fgpc := by
    obtain rfl | rfl := hbody
    · rw [List.append_nil] at hle ⊢
      exact List.take_append_of_le_length hle
    · rfl
  refine ⟨body, hbody, Nat.zero_le _, ?_⟩
  show streamSteps (rewound s) = streamSteps s.prog ++ body
  rw [rewound, streamSteps_append, streamSteps_map_encode hatomic, htake, hrest, List.take_append_drop]

/-- Executing the next word of the stream keeps FG's position in step. -/
theorem positionInStep_exec {s t : State} {w : CommandWord} {ws : List CommandWord} {i : Instr}
    (hs : PositionInStep s) (hr : s.rest = w :: ws) (hd : decode w = .ok i) (h : exec i (s.withRest ws) = .next t) :
    PositionInStep t := by
  have hsteps : streamSteps s.rest = atomics i ++ streamSteps ws := by
    rw [hr, streamSteps_cons, wordSteps_of_decode hd]
  have hevent : atomics i = [] → PositionInStep (s.withRest ws) := fun hi =>
    positionInStep_withRest (by rw [hsteps, hi, List.nil_append]) hs
  obtain ⟨first, more, hi, -, rfl⟩ | ⟨rfl, -, rfl⟩ | ⟨n, k, v, ⟨rfl, -⟩ | ⟨rfl, -⟩, -, rfl⟩ | ⟨rfl, rfl⟩ := exec_cases h
  · obtain ⟨body, hbody, -, hrest⟩ := hs
    obtain ⟨hrest', hfgpc, -, -, -, hprog, hloop⟩ := effect_else first (pushSteps more (s.withRest ws))
    have hmore : streamSteps (more.map encode) = more := streamSteps_map_encode fun j hj =>
      (Laws.expansion i (wf_of_decode hd)).1 j (by rw [hi]; exact List.mem_cons_of_mem _ hj)
    refine positionInStep_advanceFg (body := body) (first := first) ?_ ?_
    · rw [hloop]
      exact hbody
    · rw [hprog, hfgpc, hrest', pushSteps_rest, streamSteps_append, hmore]
      exact hrest.symm.trans (by rw [hsteps, hi]; rfl)
  · exact hevent rfl
  · exact hevent rfl
  · exact hevent rfl
  · exact positionInStep_applyReset (hevent rfl)

/-- Settles O55: FG's turn takes its word's first step off the stream, the other turns leave the stream, and reset puts
the steps executed back. -/
theorem positionStaysInStep : Obligations.PositionStaysInStep := by
  unfold Obligations.PositionStaysInStep
  intro s t hs h
  obtain ⟨-, w, ws, i, hr, hd, he⟩ | ⟨σ, -, ⟨-, rfl⟩ | ⟨-, rfl⟩⟩ | ⟨σ, k, v, -, rfl⟩ | ⟨σ, -, rfl⟩ := step_cases h
  · exact positionInStep_exec (s := (refill s).under s.sched.tail) (positionInStep_refill hs) hr hd he
  · exact hs
  · exact hs
  · exact hs
  · exact positionInStep_applyReset (s := s.under σ) hs

/-! ### Who writes what -/

/-- A command that is no composite and is some step of FG is that step. -/
theorem eq_of_atomics {i first : Instr} {more : List Instr} (hc : i.kind ≠ .composite)
    (hi : atomics i = first :: more) : first = i ∧ more = [] ∧ i.agent = .fg := by
  cases i <;> simp_all [Instr.kind, atomics, Instr.agent]

/-- Settles O47: an atomic step is its effect, a tick writes the oscillator and a key event writes a key. -/
theorem stepsWriteOnlyTheirElements : Obligations.StepsWriteOnlyTheirElements := by
  unfold Obligations.StepsWriteOnlyTheirElements
  intro i s t hc hreset h
  obtain ⟨first, more, hi, -, rfl⟩ | ⟨rfl, -, rfl⟩ | ⟨n, k, v, ⟨rfl, -⟩ | ⟨rfl, -⟩, -, rfl⟩ | ⟨rfl, -⟩ := exec_cases h
  · obtain ⟨rfl, rfl, hagent⟩ := eq_of_atomics hc hi
    obtain ⟨addr, en, data, settle, outl, km, kp, sound, armed, led, key⟩ := effect_rows first (pushSteps [] s)
    obtain ⟨-, -, acc, audio, -⟩ := effect_else first (pushSteps [] s)
    exact ⟨addr, en, data, settle, outl, km, kp, sound, .inl ⟨acc, audio⟩, armed, led, .inl key, .inr hagent⟩
  · simp
  · simp
  · simp
  · exact absurd rfl hreset

/-! ### Arming -/

/-- No command but reset disarms the clock (44_sample_rate_timer.md R127). -/
theorem exec_keeps_armed {i : Instr} {s t : State} (hi : i ≠ .reset) (h : exec i s = .next t) (ha : s.armed = true) :
    t.armed = true := by
  obtain ⟨first, more, -, -, rfl⟩ | ⟨-, -, rfl⟩ | ⟨n, k, v, -, -, rfl⟩ | ⟨hreset, -⟩ := exec_cases h
  · obtain ⟨-, -, -, -, -, -, -, -, hkept | rfl, -⟩ := effect_rows first (pushSteps more s)
    · exact hkept.trans ha
    · rfl
  · exact ha
  · exact ha
  · exact absurd hreset hi

/-- Settles O40: FG's turn disarms by the word of reset only, and of the other turns only reset's disarms. -/
theorem onlyResetDisarms : Obligations.OnlyResetDisarms := by
  unfold Obligations.OnlyResetDisarms
  intro s t h ha hd
  obtain ⟨hσ, w, ws, i, hr, hw, he⟩ | ⟨σ, -, ⟨-, rfl⟩ | ⟨-, rfl⟩⟩ | ⟨σ, k, v, -, rfl⟩ | ⟨σ, hσ, -⟩ := step_cases h
  · have hi : i = .reset := by
      by_contra hi
      exact absurd (exec_keeps_armed hi he ha) (by simp [hd])
    exact .inr ⟨ws, by rw [hr, ← encode_of_decode hw, hi], hσ⟩
  · simp [ha] at hd
  · simp [ha] at hd
  · simp [ha] at hd
  · exact .inl ⟨σ, hσ⟩

/-! ### The keys -/

/-- The columns show the keys of the settled row at most (41_key_matrix_scanner.md R75). -/
theorem column_withKey {s : State} {k : BitVec 12}
    (h : ∀ q c, settledRow s = some q → k.getLsbD (cellIndex q c).val = s.held (cellIndex q c)) :
    column { s with key := k } = column s := by
  funext c
  cases hq : settledRow s with
  | none =>
    have hq' : settledRow { s with key := k } = none := hq
    simp only [column, hq, hq']
  | some q =>
    have hq' : settledRow { s with key := k } = some q := hq
    rw [column_of_settled hq, column_of_settled hq', ← h q c hq]
    rfl

/-- A sampling that finds the same columns does the same. -/
theorem sampleRow_withKey {s : State} {k : BitVec 12} (q : Fin 3) (h : column { s with key := k } = column s) :
    sampleRow q { s with key := k } = { sampleRow q s with key := k } := by
  unfold sampleRow
  rw [h]
  rfl

theorem elapse_withKey (n : Nat) (s : State) (k : BitVec 12) :
    elapse n { s with key := k } = { elapse n s with key := k } := rfl

/-- No atomic step but a sampling reads the keys (10_state.md R24). -/
theorem effect_withKey {i : Instr} (s : State) (k : BitVec 12) (hi : ∀ r, i ≠ .smp r) :
    effect i { s with key := k } = { effect i s with key := k } := by
  cases i with
  | smp r => exact absurd rfl (hi r)
  | dly2 | dly3 | wait100 => exact elapse_withKey _ s k
  | rsvi n => cases hn : noteOf n <;> simp only [effect, hn] <;> rfl
  | _ => rfl

/-- Only a sampling begins with a sampling. -/
theorem ne_smp_of_atomics {i first : Instr} {more : List Instr} (hi : atomics i = first :: more)
    (hsmp : ∀ r, i ≠ .smp r) (r : BitVec 3) : first ≠ .smp r := by
  rintro rfl
  cases i <;> simp_all [atomics, setoutSteps, selrowSteps, scanrowSteps, resolveSteps, scanSteps, startupSteps,
    fgiterSteps]

/-- Every command that is no event of the environment and no sampling does the same whatever the keys are, and moves
none. -/
theorem exec_withKey {i : Instr} {s t : State} (k : BitVec 12) (henv : i.agent ≠ .env) (hsmp : ∀ r, i ≠ .smp r)
    (h : exec i s = .next t) : t.key = s.key ∧ exec i { s with key := k } = .next { t with key := k } := by
  obtain ⟨first, more, hi, hexec, rfl⟩ | ⟨rfl, ha, rfl⟩ | ⟨n, _, v, ⟨rfl, -⟩ | ⟨rfl, -⟩, -⟩ | ⟨rfl, rfl⟩ :=
    exec_cases h
  · obtain ⟨-, -, -, -, -, -, -, -, -, -, hkey⟩ := effect_rows first (pushSteps more s)
    have hkeys := effect_withKey (pushSteps more s) k (ne_smp_of_atomics hi hsmp)
    refine ⟨hkey, ?_⟩
    rw [hexec]
    exact congrArg (fun u => Host.Outcome.next (advanceFg u)) hkeys
  · exact ⟨rfl, exec_tick_eq_next.mpr ⟨ha, rfl⟩⟩
  · exact absurd rfl henv
  · exact absurd rfl henv
  · exact ⟨rfl, rfl⟩

/-- Settles O32: of FG's commands, the tick and reset only a sampling reads keys, and only those of the settled row. -/
theorem keysReachTheCoreOnlyBySampling : Obligations.KeysReachTheCoreOnlyBySampling := by
  unfold Obligations.KeysReachTheCoreOnlyBySampling
  refine ⟨fun i s t k henv hsmp h => exec_withKey k henv hsmp h, fun r s t k hk h => ?_⟩
  cases hr : rowOf r <;> simp only [exec, execSmp, hr] at h ⊢ <;> cases h
  case some q =>
    rw [fgStep, sampleRow_withKey q (column_withKey hk)]
    exact ⟨rfl, rfl⟩

/-! ### The end of a pass -/

/-- FG's turn where nothing is scheduled, at the end of a pass: the first word of the loop body runs. -/
theorem step_unscheduled_refill {s : State} {w : CommandWord} {ws : List CommandWord} {i : Instr} (hs : s.sched = [])
    (hr : (refill s).rest = w :: ws) (hd : decode w = .ok i) : step s = exec i ((refill s).withRest ws) := by
  unfold step fetch
  rw [hs]
  simp only [fetchWord_refill hr hd]

/-- Settles O12: `advanceFg` and `refill`, case by case. -/
theorem positionAdvancesOrLoops : Obligations.PositionAdvancesOrLoops := by
  unfold Obligations.PositionAdvancesOrLoops
  intro s
  refine ⟨fun h => advanceFg_of_not_passDone ?_, fun hr hl => advanceFg_of_passDone ?_, fun w ws i hr hl hd => ?_⟩
  · obtain h | h := h <;> simp [passDone, h]
  · simp [passDone, hr, hl]
  · have hrefill := refill_of_nil hr
    have hrest : (refill s).rest = w :: ws := by rw [hrefill, hl]
    refine ⟨fun hs => ?_, fun σ hs => ?_⟩
    · rw [step_unscheduled_refill hs hrest hd, hrefill]
      rfl
    · rw [step_fg_refill hs hrest hd, hrefill]
      rfl

end Sys2Proof.Machine

end

section
/-! PROOFS of the family 20_memory.md: which lines the boot program drives, which cells are read, and what a tick and the
foreground share. The rules each proof cites stand before it. -/

namespace Sys2Proof.Machine

/-! ### Runs whose turns keep a condition -/

/-- What holds before a run and is kept by each of the turns it takes holds after it. -/
theorem runUnder_keeps_of_turns {P : State → Prop} {σ : List Turn}
    (hstep : ∀ u ∈ σ, ∀ s t τ, P s → step (s.under (u :: τ)) = .next t → P t) (hend : ∀ s, P s → P (s.under []))
    {s t : State} (hs : P s) (h : runUnder σ s = .next t) : P t := by
  induction σ generalizing s with
  | nil =>
    injection h with h
    subst h
    exact hend s hs
  | cons u σ ih =>
    obtain ⟨v, hv, hr⟩ := runUnder_cons_next h
    exact ih (fun x hx => hstep x (List.mem_cons_of_mem _ hx)) (hstep u (List.mem_cons_self ..) s v σ hs hv) hr

/-! ### Which line an atomic step can change -/

/-- A delay leaves every line alone but the one that is driven (40_mux_controller.md R69). -/
theorem elapse_line_other {n : Nat} {s : State} {k : Fin 5} (h : drivenLine (elapse n s) ≠ some k) :
    (elapse n s).line k = s.line k := by
  have hs : drivenLine s ≠ some k := h
  cases hd : drivenLine s with
  | none => rw [elapse_of_none n hd]; rfl
  | some j =>
    have hkj : k.val ≠ j.val := fun he => hs (by rw [hd, Fin.ext he])
    rw [elapse_of_some n hd]
    unfold State.line
    simp only
    split
    · exact getLsbD_writeBit_other _ _ _ _ hkj
    · rfl

/-- An atomic step leaves every line alone but the one that is driven when it is done (10_state.md R14). -/
theorem effect_line_other {i : Instr} {s : State} {k : Fin 5} (h : drivenLine (effect i s) ≠ some k) :
    (effect i s).line k = s.line k := by
  cases i with
  | enl | enh | dat _ | adr _ => exact busTouch_line_other h
  | dly2 | dly3 | wait100 => exact elapse_line_other h
  | smp r => cases hr : rowOf r <;> simp only [effect, hr] <;> rfl
  | rsvi n => cases hn : noteOf n <;> simp only [effect, hn] <;> rfl
  | _ => rfl

/-- With enable low, or another address, an atomic step leaves the line alone. -/
theorem effect_line_undriven {i : Instr} {s : State} {k : Fin 5}
    (h : (effect i s).en = false ∨ (effect i s).addr.toNat ≠ 3 + k.val) : (effect i s).line k = s.line k := by
  refine effect_line_other fun hdriven => ?_
  obtain ⟨hen, haddr⟩ := drivenLine_eq_some.mp hdriven
  obtain h | h := h
  · exact absurd (hen.symm.trans h) (by decide)
  · exact h haddr

/-! ### What an atomic step makes of the pins and the arming bit -/

/-- `ADDR` after an atomic step: only `ADR` drives it (10_state.md R10). -/
def addressAfter : Instr → MuxAddr → MuxAddr
  | .adr a, _ => a
  | _, a => a

/-- `EN` after an atomic step: only `ENL` and `ENH` drive it (10_state.md R11). -/
def enableAfter : Instr → Bool → Bool
  | .enl, _ => false
  | .enh, _ => true
  | _, e => e

/-- `DATA` after an atomic step: only `DAT` drives it (10_state.md R12). -/
def dataAfter : Instr → Bool → Bool
  | .dat v, _ => v
  | _, d => d

/-- `ARMED` after an atomic step: only `ARM` sets it (10_state.md R22). -/
def armedAfter : Instr → Bool → Bool
  | .arm, _ => true
  | _, b => b

theorem effect_pins (i : Instr) (s : State) :
    (effect i s).addr = addressAfter i s.addr ∧ (effect i s).en = enableAfter i s.en ∧
      (effect i s).data = dataAfter i s.data ∧ (effect i s).armed = armedAfter i s.armed := by
  cases i with
  | smp r => cases hr : rowOf r <;> simp only [effect, hr] <;> exact ⟨rfl, rfl, rfl, rfl⟩
  | rsvi n => cases hn : noteOf n <;> simp only [effect, hn] <;> exact ⟨rfl, rfl, rfl, rfl⟩
  | dly2 | dly3 | wait100 => exact ⟨elapse_addr _ s, elapse_en _ s, elapse_data _ s, elapse_armed _ s⟩
  | _ => exact ⟨rfl, rfl, rfl, rfl⟩

/-! ### The boot program's steps -/

/-- The steps of the boot program, in the order of `FGPC`: `STARTUP`, `ARM`, and a pass of the loop
(45_foreground_sequencer.md R136). -/
def bootSteps : List Instr := startupSteps ++ .arm :: fgiterSteps

theorem streamSteps_bootStraight : streamSteps bootStraight = startupSteps ++ [.arm] := by decide

theorem streamSteps_bootLoop : streamSteps bootLoop = fgiterSteps := by decide

/-- Enable after `n` steps of the boot program: each strobe asserts it for two steps. -/
def EnableAtBoot (n : Nat) (e : Bool) : Prop := 1 ≤ n → n ≤ 18 → e = decide (n % 6 = 4 ∨ n % 6 = 5)

/-- The address after `n` steps of the boot program. -/
def AddressAtBoot (n : Nat) (a : MuxAddr) : Prop :=
  (2 ≤ n → n ≤ 13 → a = Config.muxDrst) ∧ (14 ≤ n → n ≤ 18 → a = Config.muxDen) ∧ (22 ≤ n → a.toNat ≤ 2) ∧
  (2 ≤ n → a.toNat ≤ 4)

/-- From the loop on the pins drive no line. -/
def NoLineInLoop (n : Nat) (e : Bool) (a : MuxAddr) : Prop := 19 ≤ n → e = false ∨ a.toNat < 3

/-- The data line after `n` steps of the boot program. -/
def DataAtBoot (n : Nat) (d : Bool) : Prop :=
  (3 ≤ n → n ≤ 8 → d = Config.drstAssert) ∧ (9 ≤ n → d = !Config.drstAssert)

/-- Lines 3 and 4 after `n` steps of the boot program. -/
def LinesAtBoot (n : Nat) (s : State) : Prop :=
  (5 ≤ n → n ≤ 9 → s.line 1 = Config.drstAssert) ∧ (11 ≤ n → s.line 1 = !Config.drstAssert) ∧
  (17 ≤ n → s.line 0 = Config.denOn)

/-- What `AtBootStep` says of the bus, the lines and the arming bit, at step `n` instead of at `FGPC`. -/
def BusAtBoot (n : Nat) (s : State) : Prop :=
  EnableAtBoot n s.en ∧ AddressAtBoot n s.addr ∧ NoLineInLoop n s.en s.addr ∧ DataAtBoot n s.data ∧
    s.armed = decide (19 ≤ n) ∧ LinesAtBoot n s

theorem atBootStep_iff {s : State} :
    AtBootStep s ↔ s.prog = bootStraight ∧ s.loop = bootLoop ∧ OwnCommands s ∧ PositionInStep s ∧
      BusAtBoot s.fgpc s := by
  constructor
  · intro h
    exact ⟨h.prog, h.loop, h.own, h.position,
      h.strobe, ⟨h.addrReset, h.addrPower, h.rowAddressed, h.addrLow⟩, fun hn => drivenLine_eq_none.mp (h.noLine hn),
      ⟨h.dataAssert, h.dataRelease⟩, h.armed, h.resetHeld, h.resetReleased, h.powered⟩
  · rintro ⟨prog, loop, own, position, strobe, ⟨addrReset, addrPower, rowAddressed, addrLow⟩, noLine,
      ⟨dataAssert, dataRelease⟩, armed, resetHeld, resetReleased, powered⟩
    exact ⟨prog, loop, own, position, armed, strobe, addrReset, addrPower, dataAssert, dataRelease, resetHeld,
      resetReleased, powered, fun hn => drivenLine_eq_none.mpr (noLine hn), rowAddressed, addrLow⟩

/-! ### Each step brings the pins, the lines and the arming bit to where the next expects them -/

theorem enableAtBoot_after : ∀ p ∈ bootSteps.zipIdx, ∀ e, EnableAtBoot p.2 e →
    EnableAtBoot (p.2 + 1) (enableAfter p.1 e) := by
  unfold EnableAtBoot
  decide

theorem addressAtBoot_after : ∀ p ∈ bootSteps.zipIdx, ∀ a, AddressAtBoot p.2 a →
    AddressAtBoot (p.2 + 1) (addressAfter p.1 a) := by
  unfold AddressAtBoot
  decide

theorem noLineInLoop_after : ∀ p ∈ bootSteps.zipIdx, ∀ e a, EnableAtBoot p.2 e → AddressAtBoot p.2 a →
    NoLineInLoop p.2 e a → NoLineInLoop (p.2 + 1) (enableAfter p.1 e) (addressAfter p.1 a) := by
  unfold EnableAtBoot AddressAtBoot NoLineInLoop
  decide

theorem dataAtBoot_after : ∀ p ∈ bootSteps.zipIdx, ∀ d, DataAtBoot p.2 d →
    DataAtBoot (p.2 + 1) (dataAfter p.1 d) := by
  unfold DataAtBoot
  decide

theorem armedAtBoot_after : ∀ p ∈ bootSteps.zipIdx, armedAfter p.1 (decide (19 ≤ p.2)) = decide (19 ≤ p.2 + 1) := by
  decide

/-- Each strobe of `STARTUP` holds its line for `T_OUT` in its fifth step (40_mux_controller.md R66). -/
theorem dly2_of_strobe : ∀ p ∈ bootSteps.zipIdx, p.2 < 18 → p.2 % 6 = 4 → p.1 = .dly2 := by decide

/-- Lines 3 and 4 follow the pins: a strobe's delay gives its line the data level, and no other step of the boot program
drives a line whose level is settled. -/
theorem linesAtBoot_effect {n : Nat} {i : Instr} {s : State} (hi : (i, n) ∈ bootSteps.zipIdx)
    (h : LinesAtBoot n s) (henable : EnableAtBoot (n + 1) (effect i s).en)
    (haddress : AddressAtBoot (n + 1) (effect i s).addr) (hloop : NoLineInLoop (n + 1) (effect i s).en (effect i s).addr)
    (hdata : DataAtBoot (n + 1) (effect i s).data) : LinesAtBoot (n + 1) (effect i s) := by
  obtain ⟨held, released, powered⟩ := h
  obtain ⟨addrReset, addrPower, -, -⟩ := haddress
  obtain ⟨dataAssert, dataRelease⟩ := hdata
  have hheld : ∀ k : Fin 5, n < 18 → n % 6 = 4 → (effect i s).addr.toNat = 3 + k.val →
      (effect i s).line k = (effect i s).data := by
    intro k h18 h4 hk
    have hdriven := drivenLine_eq_some.mpr ⟨(henable (by omega) (by omega)).trans (decide_eq_true (by omega)), hk⟩
    obtain rfl : i = .dly2 := dly2_of_strobe _ hi h18 h4
    exact lineSettled_elapse 2 s k hdriven (by simp)
  have hoff : n + 1 ≤ 18 → (n + 1) % 6 < 4 → (effect i s).en = false := fun h18 h4 =>
    (henable (by omega) h18).trans (decide_eq_false (by omega))
  have hrow : 19 ≤ n + 1 → ∀ k : Fin 5, (effect i s).en = false ∨ (effect i s).addr.toNat ≠ 3 + k.val :=
    fun h19 k => (hloop h19).imp_right fun _ => by omega
  refine ⟨fun h5 h9 => ?_, fun h11 => ?_, fun h17 => ?_⟩
  · obtain rfl | h : n = 4 ∨ 5 ≤ n := by omega
    · rw [hheld 1 (by omega) rfl (by rw [addrReset (by omega) (by omega)]; rfl), dataAssert (by omega) (by omega)]
    · rw [effect_line_undriven (k := 1) (.inl (hoff (by omega) (by omega))), held h (by omega)]
  · obtain rfl | h : n = 10 ∨ 11 ≤ n := by omega
    · rw [hheld 1 (by omega) rfl (by rw [addrReset (by omega) (by omega)]; rfl), dataRelease (by omega)]
    · rw [effect_line_undriven (k := 1) ?_, released h]
      obtain h13 | ⟨h14, h18⟩ | h19 : n + 1 ≤ 13 ∨ (14 ≤ n + 1 ∧ n + 1 ≤ 18) ∨ 19 ≤ n + 1 := by omega
      · exact .inl (hoff (by omega) (by omega))
      · exact .inr (by rw [addrPower h14 h18]; decide)
      · exact hrow h19 1
  · obtain rfl | h : n = 16 ∨ 17 ≤ n := by omega
    · rw [hheld 0 (by omega) rfl (by rw [addrPower (by omega) (by omega)]; rfl), dataRelease (by omega)]
      rfl
    · rw [effect_line_undriven (k := 0) ?_, powered h]
      obtain rfl | h19 : n = 17 ∨ 19 ≤ n + 1 := by omega
      · exact .inl (hoff (by omega) (by omega))
      · exact hrow h19 0

/-- Each step of the boot program leaves the bus, the lines and the arming bit as the next expects them. -/
theorem busAtBoot_effect {n : Nat} {i : Instr} {s : State} (hi : bootSteps[n]? = some i) (h : BusAtBoot n s) :
    BusAtBoot (n + 1) (effect i s) := by
  have hmem : (i, n) ∈ bootSteps.zipIdx := List.mem_zipIdx_iff_getElem?.mpr hi
  obtain ⟨henable, haddress, hloop, hdata, harmed, hlines⟩ := h
  obtain ⟨ha, he, hd, hr⟩ := effect_pins i s
  have henable' : EnableAtBoot (n + 1) (effect i s).en := he ▸ enableAtBoot_after _ hmem _ henable
  have haddress' : AddressAtBoot (n + 1) (effect i s).addr := ha ▸ addressAtBoot_after _ hmem _ haddress
  have hloop' : NoLineInLoop (n + 1) (effect i s).en (effect i s).addr :=
    he ▸ ha ▸ noLineInLoop_after _ hmem _ _ henable haddress hloop
  have hdata' : DataAtBoot (n + 1) (effect i s).data := hd ▸ dataAtBoot_after _ hmem _ hdata
  refine ⟨henable', haddress', hloop', hdata', ?_, linesAtBoot_effect hmem hlines henable' haddress' hloop' hdata'⟩
  rw [hr, harmed]
  exact armedAtBoot_after _ hmem

/-- From the loop on the conditions do not name the step: they hold again at the loop's first step. -/
theorem busAtBoot_loopStart {n : Nat} {s : State} (hn : 19 ≤ n) (h : BusAtBoot n s) : BusAtBoot 19 s := by
  obtain ⟨-, ⟨-, -, -, addrLow⟩, hloop, ⟨-, dataRelease⟩, harmed, -, released, powered⟩ := h
  have h9 : 9 ≤ n := by omega
  refine ⟨fun _ h18 => absurd h18 (by decide),
    ⟨fun _ h13 => absurd h13 (by decide), fun _ h18 => absurd h18 (by decide), fun h22 => absurd h22 (by decide),
      fun _ => addrLow (by omega)⟩,
    fun _ => hloop hn, ⟨fun _ h8 => absurd h8 (by decide), fun _ => dataRelease h9⟩, ?_,
    fun _ h9 => absurd h9 (by decide), fun _ => released (by omega), fun _ => powered (by omega)⟩
  rw [harmed, decide_eq_true hn]
  rfl

theorem busAtBoot_of_alike {n : Nat} {s t : State} (ht : AlikeForFg s t) (h : BusAtBoot n s) : BusAtBoot n t := by
  rw [alike_iff.mp ht]
  exact h

theorem alike_refill (s : State) : AlikeForFg s (refill s) := by constructor <;> rfl

theorem alike_pushSteps (is : List Instr) (s : State) : AlikeForFg s (pushSteps is s) := by constructor <;> rfl

/-! ### Programs that hold commands of FG only -/

theorem agent_of_atomic {i : Instr} (hk : i.kind = .atomic) : i.agent = .fg := by
  cases i <;> simp_all [Instr.kind, Instr.agent]

/-- A program of FG's commands stays one when atomic steps are put in front of words it holds. -/
theorem ownCommands_of_rest {s t : State} {is : List Instr} {ws : List CommandWord} (h : OwnCommands s)
    (hprog : t.prog = s.prog) (hloop : t.loop = s.loop) (hrest : t.rest = is.map encode ++ ws)
    (his : ∀ j ∈ is, j.kind = .atomic ∧ j.wf = true) (hws : ws ⊆ s.prog ++ s.loop ++ s.rest) : OwnCommands t := by
  obtain ⟨hne, hown⟩ := h
  refine ⟨hloop ▸ hne, fun w hw => ?_⟩
  rw [hprog, hloop, hrest] at hw
  have hmem : w ∈ is.map encode ∨ w ∈ s.prog ++ s.loop ++ s.rest := by
    rcases List.mem_append.mp hw with hw | hw
    · exact .inr (List.mem_append_left _ hw)
    · exact (List.mem_append.mp hw).imp_right fun hw => hws hw
  obtain hw | hw := hmem
  · obtain ⟨j, hj, rfl⟩ := List.mem_map.mp hw
    obtain ⟨hkind, hwf⟩ := his j hj
    exact ⟨j, decode_encode hwf, agent_of_atomic hkind⟩
  · exact hown w hw

/-- The stream FG goes on with holds commands of FG only. -/
theorem ownCommands_refill {s : State} (h : OwnCommands s) : OwnCommands (refill s) := by
  cases hr : s.rest with
  | nil => exact ownCommands_of_rest (is := []) h rfl rfl (by rw [refill_of_nil hr]; rfl) (by simp) (by simp)
  | cons w ws => rwa [refill_of_cons hr]

/-- FG's turn in such a program executes the step FG is at: its effect, with the rest of the expansion put in front of
the words still to come, and FG goes on. -/
theorem fgTurn_effect {s t : State} {w : CommandWord} {ws : List CommandWord} {i : Instr} {σ : List Turn}
    (hown : OwnCommands s) (hpos : PositionInStep s) (hr : (refill s).rest = w :: ws) (hd : decode w = .ok i)
    (h : exec i (((refill s).withRest ws).under σ) = .next t) :
    ∃ first u body, (body = [] ∨ body = streamSteps s.loop) ∧
      (streamSteps s.prog ++ body).drop (refill s).fgpc = first :: streamSteps u.rest ∧
      u.fgpc = (refill s).fgpc ∧ AlikeForFg s u ∧ OwnCommands u ∧ t = advanceFg (effect first u) := by
  have hown' := ownCommands_refill hown
  have hagent : i.agent = .fg := by
    obtain ⟨j, hj, hagent⟩ := hown'.2 w (by simp [hr])
    rw [hd] at hj
    injection hj with hj
    rw [hj, hagent]
  obtain ⟨first, more, hi, -, rfl⟩ | ⟨rfl, -⟩ | ⟨n, k, v, ⟨rfl, -⟩ | ⟨rfl, -⟩, -⟩ | ⟨rfl, -⟩ := exec_cases h
  · obtain ⟨body, hbody, -, hrest⟩ := positionInStep_refill hpos
    have hmore : ∀ j ∈ more, j.kind = .atomic ∧ j.wf = true := fun j hj =>
      (Laws.expansion i (wf_of_decode hd)).1 j (by rw [hi]; exact List.mem_cons_of_mem _ hj)
    refine ⟨first, pushSteps more (((refill s).withRest ws).under σ), body, hbody, ?_, rfl, ?_, ?_, rfl⟩
    · rw [pushSteps_rest, streamSteps_append, streamSteps_map_encode hmore]
      rw [hr, streamSteps_cons, wordSteps_of_decode hd, hi] at hrest
      exact hrest.symm
    · exact (alike_refill s).trans ((alike_withRest _ _).trans ((alike_under _ _).trans (alike_pushSteps _ _)))
    · refine ownCommands_of_rest hown' rfl rfl rfl hmore ?_
      rw [hr]
      exact fun x hx => List.mem_append_right _ (List.mem_cons_of_mem _ hx)
  all_goals cases hagent

/-! ### Every step keeps the boot program's conditions -/

theorem bootSteps_extend {body : List Instr} (hbody : body = [] ∨ body = streamSteps bootLoop) :
    streamSteps bootStraight ++ body <+: bootSteps := by
  have hboot : bootSteps = streamSteps bootStraight ++ streamSteps bootLoop := by
    rw [streamSteps_bootStraight, streamSteps_bootLoop]
    rfl
  rw [hboot]
  obtain rfl | rfl := hbody
  · exact (List.prefix_append_right_inj _).mpr (List.nil_prefix ..)
  · exact List.prefix_rfl

theorem length_streamSteps_bootStraight : (streamSteps bootStraight).length = 19 := by
  rw [streamSteps_bootStraight]
  rfl

/-- At the end of a pass the conditions hold at the loop's first step, which is next. -/
theorem busAtBoot_refill {s : State} (h : AtBootStep s) : BusAtBoot (refill s).fgpc s := by
  obtain ⟨hprog, -, -, hposition, hbus⟩ := atBootStep_iff.mp h
  cases hr : s.rest with
  | cons w ws => rwa [refill_of_cons hr]
  | nil =>
    obtain ⟨body, -, -, hrest⟩ := hposition
    have hend := List.drop_eq_nil_iff.mp (hrest.symm.trans (by rw [hr]; rfl))
    rw [hprog, List.length_append, length_streamSteps_bootStraight] at hend
    rw [refill_of_nil hr, hprog]
    show BusAtBoot (streamSteps bootStraight).length s
    rw [length_streamSteps_bootStraight]
    exact busAtBoot_loopStart (by omega) hbus

/-- FG's turn at a boot step executes that step of the boot program and goes on to the next, or from the last step of a
pass to the first of the loop. -/
theorem bootTurn {s t : State} {w : CommandWord} {ws : List CommandWord} {i : Instr} {σ : List Turn}
    (hs : AtBootStep s) (hr : (refill s).rest = w :: ws) (hd : decode w = .ok i)
    (h : exec i (((refill s).withRest ws).under σ) = .next t) :
    ∃ first u, bootSteps[(refill s).fgpc]? = some first ∧ AlikeForFg s u ∧ OwnCommands u ∧
      t = advanceFg (effect first u) ∧ BusAtBoot ((refill s).fgpc + 1) (effect first u) ∧
      (t.fgpc = (refill s).fgpc + 1 ∨ 19 ≤ (refill s).fgpc + 1 ∧ t.fgpc = 19) := by
  obtain ⟨first, u, body, hbody, hdrop, hfgpc, halike, hown, rfl⟩ := fgTurn_effect hs.own hs.position hr hd h
  rw [hs.prog] at hdrop
  rw [hs.loop] at hbody
  have hfirst : bootSteps[(refill s).fgpc]? = some first := by
    obtain ⟨more, hmore⟩ := (bootSteps_extend hbody).drop (refill s).fgpc
    rw [← List.head?_drop, ← hmore, hdrop]
    rfl
  obtain ⟨hrest, hfgpc', -, -, -, hprog, -⟩ := effect_else first u
  have hbus := busAtBoot_effect hfirst (busAtBoot_of_alike halike (busAtBoot_refill hs))
  refine ⟨first, u, hfirst, halike, hown, rfl, hbus, ?_⟩
  cases hp : passDone (effect first u) with
  | false =>
    rw [advanceFg_of_not_passDone hp]
    exact .inl (by rw [← hfgpc, ← hfgpc'])
  | true =>
    obtain ⟨hno, -⟩ : hasForeground u.rest = false ∧ hasForeground (effect first u).loop = true := by
      simpa [passDone, hrest] using hp
    have hlen := congrArg List.length hdrop
    rw [streamSteps_of_no_foreground hno, List.length_drop, List.length_append, length_streamSteps_bootStraight,
      List.length_singleton] at hlen
    rw [advanceFg_of_passDone hp]
    refine .inr ⟨by omega, ?_⟩
    show (streamSteps (effect first u).prog).length = 19
    rw [hprog, halike.prog, hs.prog, length_streamSteps_bootStraight]

/-- Before the first step the conditions ask for nothing but an unarmed clock. -/
theorem busAtBoot_zero {s : State} (h : s.armed = false) : BusAtBoot 0 s := by
  simp [BusAtBoot, EnableAtBoot, AddressAtBoot, NoLineInLoop, DataAtBoot, LinesAtBoot, h]

theorem atBootStep_applyReset {s : State} (hs : AtBootStep s) : AtBootStep (applyReset s) := by
  obtain ⟨hprog, hloop, hown, hposition, -⟩ := atBootStep_iff.mp hs
  refine atBootStep_iff.mpr ⟨hprog, hloop, ?_, positionInStep_applyReset hposition, busAtBoot_zero rfl⟩
  refine ownCommands_of_rest hown rfl rfl rfl (fun j hj => ?_) (List.subset_append_right _ _)
  rw [← streamSteps_append] at hj
  exact atomic_of_mem_streamSteps (List.mem_of_mem_take hj)

theorem atBootStep_under {s : State} (σ : List Turn) (hs : AtBootStep s) : AtBootStep (s.under σ) := by
  have h := atBootStep_iff.mp hs
  exact atBootStep_iff.mpr h

theorem atBootStep_takeTick {s : State} (hs : AtBootStep s) : AtBootStep (takeTick s) := by
  have h := atBootStep_iff.mp hs
  exact atBootStep_iff.mpr h

theorem atBootStep_setKey {s : State} (k : Fin 12) (v : Bool) (hs : AtBootStep s) : AtBootStep (setKey k v s) := by
  have h := atBootStep_iff.mp hs
  exact atBootStep_iff.mpr h

theorem ownCommands_reset : OwnCommands State.reset := by
  refine ⟨by decide, fun w hw => ?_⟩
  have hwords : w = encode .startup ∨ w = encode .arm ∨ w = encode .fgiter := by
    revert w
    decide
  obtain rfl | rfl | rfl := hwords
  · exact ⟨.startup, rfl, rfl⟩
  · exact ⟨.arm, rfl, rfl⟩
  · exact ⟨.fgiter, rfl, rfl⟩

theorem atBootStep_reset : AtBootStep State.reset :=
  atBootStep_iff.mpr ⟨rfl, rfl, ownCommands_reset, ⟨[], .inl rfl, Nat.zero_le _, rfl⟩, busAtBoot_zero rfl⟩

/-- Every step of every agent leads from a boot step to a boot step. -/
theorem atBootStep_step {s t : State} (hs : AtBootStep s) (h : step s = .next t) : AtBootStep t := by
  have hposition := positionStaysInStep s t hs.position h
  obtain ⟨-, w, ws, i, hr, hd, he⟩ | ⟨σ, -, ⟨-, rfl⟩ | ⟨-, rfl⟩⟩ | ⟨σ, k, v, -, rfl⟩ | ⟨σ, -, rfl⟩ := step_cases h
  · obtain ⟨first, u, -, halike, hown, rfl, hbus, hfgpc⟩ := bootTurn hs hr hd he
    obtain ⟨hrest, -, -, -, -, hprog, hloop⟩ := effect_else first u
    refine atBootStep_iff.mpr ⟨hprog.trans (halike.prog.trans hs.prog), hloop.trans (halike.loop.trans hs.loop),
      ownCommands_of_rest (is := []) hown hprog hloop hrest (by simp) (List.subset_append_right _ _), hposition, ?_⟩
    obtain hn | ⟨h19, hn⟩ := hfgpc
    · rw [hn]
      exact hbus
    · rw [hn]
      exact busAtBoot_loopStart h19 hbus
  · exact atBootStep_under σ hs
  · exact atBootStep_takeTick (atBootStep_under σ hs)
  · exact atBootStep_setKey k v (atBootStep_under σ hs)
  · exact atBootStep_applyReset (atBootStep_under σ hs)

/-! ### The reserved lines -/

/-- The boot program never drives lines 5 to 7: up to its first `ADR` enable is low, and then the address is at most
4. -/
theorem busAtBoot_reserved {n : Nat} {s : State} {k : Fin 5} (h : BusAtBoot (n + 1) s) (hk : 2 ≤ k.val) :
    drivenLine s ≠ some k := by
  obtain ⟨henable, ⟨-, -, -, addrLow⟩, -⟩ := h
  intro hdriven
  obtain ⟨hen, haddr⟩ := drivenLine_eq_some.mp hdriven
  obtain rfl | h2 : n = 0 ∨ 2 ≤ n + 1 := by omega
  · rw [henable (by omega) (by omega)] at hen
    cases hen
  · have := addrLow h2
    omega

theorem bootStep_keeps_reservedLines {s t : State} (hs : AtBootStep s) (hreset : ∀ σ, s.sched ≠ .reset :: σ)
    (h : step s = .next t) {k : Fin 5} (hk : 2 ≤ k.val) : t.line k = s.line k := by
  obtain ⟨-, w, ws, i, hr, hd, he⟩ | ⟨σ, -, ⟨-, rfl⟩ | ⟨-, rfl⟩⟩ | ⟨σ, _, v, -, rfl⟩ | ⟨σ, hσ, -⟩ := step_cases h
  · obtain ⟨first, u, -, halike, -, rfl, hbus, -⟩ := bootTurn hs hr hd he
    calc (advanceFg (effect first u)).line k
      _ = u.line k := effect_line_other (busAtBoot_reserved hbus hk)
      _ = s.line k := by rw [State.line, halike.outl, State.line]
  · rfl
  · rfl
  · rfl
  · exact absurd hσ (hreset σ)

/-- FG is at a boot step, and lines 5 to 7 carry what they carried after reset. -/
def BootFromReset (s : State) : Prop := AtBootStep s ∧ ∀ k : Fin 5, 2 ≤ k.val → s.line k = State.reset.line k

/-- Settles O59: every step keeps the boot program's conditions, and they leave lines 5 to 7 undriven; a run from reset
without another reset is made of such steps. -/
theorem bootLeavesTheReservedLines : Obligations.BootLeavesTheReservedLines := by
  unfold Obligations.BootLeavesTheReservedLines
  refine ⟨fun s t hs hreset h k hk => bootStep_keeps_reservedLines hs hreset h hk, fun s hs => hs.addrLow,
    fun σ t hσ h => ?_⟩
  have hstep : ∀ u ∈ σ, ∀ s v τ, BootFromReset s → step (s.under (u :: τ)) = .next v → BootFromReset v := by
    rintro u hu s v τ ⟨hboot, hlines⟩ hv
    have hboot' := atBootStep_under (u :: τ) hboot
    have hreset : ∀ τ', (s.under (u :: τ)).sched ≠ .reset :: τ' := by
      rintro τ' ⟨⟩
      exact hσ hu
    exact ⟨atBootStep_step hboot' hv, fun k hk =>
      (bootStep_keeps_reservedLines hboot' hreset hv hk).trans (hlines k hk)⟩
  obtain ⟨hboot, hlines⟩ := runUnder_keeps_of_turns hstep (fun s hs => ⟨atBootStep_under [] hs.1, hs.2⟩)
    ⟨atBootStep_reset, fun _ _ => rfl⟩ h
  exact ⟨hlines, hboot.addrLow⟩

/-! ### Key events -/

theorem exec_keyEvent {i : Instr} {n : NoteField} {k : Fin 12} {v : Bool}
    (hi : i = .keydn n ∧ v = true ∨ i = .keyup n ∧ v = false) (hn : noteOf n = some k) (s : State) :
    exec i s = .next (setKey k v s) := by
  obtain ⟨rfl, rfl⟩ | ⟨rfl, rfl⟩ := hi
  · simp only [exec, execKeydn, hn]
  · simp only [exec, execKeyup, hn]

/-! ### The artifact cells -/

/-- Cells 0 to 11 of two matrices are the same. -/
def SameCells (m k : BitVec 32) : Prop := ∀ j, j < 12 → m.getLsbD j = k.getLsbD j

theorem sameCells_writeRow {m k : BitVec 32} (r : Fin 3) (f : Fin 4 → Bool) (h : SameCells m k) :
    SameCells (writeRow m r f) (writeRow k r f) := by
  intro j hj
  unfold writeRow
  simp only [getLsbD_writeBit, h j hj]

theorem pressed_withKm {s : State} {m : BitVec 32} (h : SameCells m s.km) (i : Fin 12) :
    State.pressed { s with km := m } i = s.pressed i := congrArg not (h i.val i.isLt)

theorem resolvePass_withKm {s : State} {m : BitVec 32} (h : SameCells m s.km) (i : Fin 12) :
    resolvePass i { s with km := m } = { resolvePass i s with km := m } := by
  unfold resolvePass
  rw [pressed_withKm h]

theorem elapse_withKm (n : Nat) {s : State} {m : BitVec 32} (h : SameCells m s.km) :
    ∃ m', SameCells m' (elapse n s).km ∧ elapse n { s with km := m } = { elapse n s with km := m' } := ⟨m, h, rfl⟩

/-- No atomic step reads the cells from 12 on: a pass reads one of the others, a sampling writes four of the others, and
`KMNEW` writes all without reading any (20_memory.md R32). -/
theorem effect_withKm (i : Instr) {s : State} {m : BitVec 32} (h : SameCells m s.km) :
    ∃ m', SameCells m' (effect i s).km ∧ effect i { s with km := m } = { effect i s with km := m' } := by
  cases i with
  | smp r =>
    cases hr : rowOf r <;> simp only [effect, hr]
    case none => exact ⟨m, h, rfl⟩
    case some q => exact ⟨_, sameCells_writeRow q (column s) h, rfl⟩
  | rsvi n =>
    cases hn : noteOf n <;> simp only [effect, hn]
    case none => exact ⟨m, h, rfl⟩
    case some k => exact ⟨m, h, resolvePass_withKm h k⟩
  | kmnew => exact ⟨_, fun _ _ => rfl, rfl⟩
  | dly2 | dly3 | wait100 => exact elapse_withKm _ h
  | _ => exact ⟨m, h, rfl⟩

/-- Settles O31: no atomic step, tick, key event or reset reads a cell from 12 on. -/
theorem artifactCellsAreNeverRead : Obligations.ArtifactCellsAreNeverRead := by
  unfold Obligations.ArtifactCellsAreNeverRead
  intro i s t m hm h
  obtain ⟨first, more, -, hexec, rfl⟩ | ⟨rfl, ha, rfl⟩ | ⟨n, k, v, hi, hn, rfl⟩ | ⟨rfl, rfl⟩ := exec_cases h
  · obtain ⟨m', hm', heffect⟩ := effect_withKm first (s := pushSteps more s) hm
    refine ⟨advanceFg { effect first (pushSteps more s) with km := m' }, ?_, hm', rfl⟩
    rw [hexec]
    exact congrArg (fun u => Host.Outcome.next (advanceFg u)) heffect
  · exact ⟨_, exec_tick_eq_next.mpr ⟨ha, rfl⟩, hm, rfl⟩
  · exact ⟨_, exec_keyEvent hi hn _, hm, rfl⟩
  · exact ⟨_, rfl, fun _ _ => rfl, rfl⟩

/-! ### Ticks between the foreground's steps -/

theorem elapse_takeTick (n : Nat) (s : State) : elapse n (takeTick s) = takeTick (elapse n s) := rfl

/-- Of the atomic steps only a pass and the end of a resolution touch what a tick reads; the others commute with it
(44_sample_rate_timer.md R123). -/
theorem effect_takeTick {i : Instr} (s : State) (hrsve : i ≠ .rsve) (hrsvi : ∀ n, i ≠ .rsvi n) :
    effect i (takeTick s) = takeTick (effect i s) := by
  cases i with
  | smp r => cases hr : rowOf r <;> simp only [effect, hr] <;> rfl
  | rsvi n => exact absurd rfl (hrsvi n)
  | rsve => exact absurd rfl hrsve
  | dly2 | dly3 | wait100 => exact elapse_takeTick _ s
  | _ => rfl

/-- A composite begins with no pass and no end of a resolution. -/
theorem ne_rsv_of_atomics {i first : Instr} {more : List Instr} (hi : atomics i = first :: more) (hrsve : i ≠ .rsve)
    (hrsvi : ∀ n, i ≠ .rsvi n) : first ≠ .rsve ∧ ∀ n, first ≠ .rsvi n := by
  cases i with
  | rsve => exact absurd rfl hrsve
  | rsvi n => exact absurd rfl (hrsvi n)
  | tick | reset | keydn _ | keyup _ => cases hi
  | _ =>
    cases hi
    exact ⟨nofun, nofun⟩

/-- Settles O48: what a command does first commutes with a tick, and so do another tick and a key event. -/
theorem tickCommutesUnlessCssIsWritten : Obligations.TickCommutesUnlessCssIsWritten := by
  unfold Obligations.TickCommutesUnlessCssIsWritten
  intro i s t ha hreset hrsve hrsvi h
  have hat : t.armed = true := exec_keeps_armed hreset h ha
  obtain ⟨first, more, hi, hexec, rfl⟩ | ⟨rfl, -, rfl⟩ | ⟨n, k, v, hi, hn, rfl⟩ | ⟨rfl, -⟩ := exec_cases h
  · obtain ⟨hrsve', hrsvi'⟩ := ne_rsv_of_atomics hi hrsve hrsvi
    refine ⟨_, _, exec_tick_eq_next.mpr ⟨ha, rfl⟩, hexec _, exec_tick_eq_next.mpr ⟨hat, ?_⟩⟩
    exact congrArg advanceFg (effect_takeTick (pushSteps more s) hrsve' hrsvi')
  · exact ⟨_, _, exec_tick_eq_next.mpr ⟨ha, rfl⟩, exec_tick_eq_next.mpr ⟨ha, rfl⟩, exec_tick_eq_next.mpr ⟨ha, rfl⟩⟩
  · exact ⟨_, _, exec_tick_eq_next.mpr ⟨ha, rfl⟩, exec_keyEvent hi hn _, exec_tick_eq_next.mpr ⟨hat, rfl⟩⟩
  · exact absurd rfl hreset

/-! ### The shared word during a resolution -/

/-- The steps of a well-formed command are plain. -/
theorem plainSteps_atomics {i : Instr} (hw : i.wf = true) : PlainSteps (atomics i) := by
  intro j hj
  obtain ⟨hk, hjw⟩ := (Laws.expansion i hw).1 j hj
  exact ⟨hk, hjw, decode_encode hjw, (isForeground_encode j).trans (decide_eq_true (agent_of_atomic hk))⟩

/-- The passes over the cells `l`, one after the other. -/
def passes (l : List (Fin 12)) (s : State) : State := l.foldl (fun u i => resolvePass i u) s

/-- Passes leave the shared word as it was or at the step of a pressed cell, and the flag clear only where none of their
cells is pressed (41_key_matrix_scanner.md R80). -/
theorem passes_css (l : List (Fin 12)) (s : State) :
    ((passes l s).css = s.css ∨ ∃ i, s.pressed i = true ∧ (passes l s).css = Config.stepSize i) ∧
      ((passes l s).kp = false → s.kp = false ∧ ∀ i ∈ l, s.pressed i = false) := by
  induction l generalizing s with
  | nil => exact ⟨.inl rfl, fun h => ⟨h, by simp⟩⟩
  | cons k l ih =>
    obtain ⟨hcss, hkp⟩ := ih (resolvePass k s)
    refine ⟨?_, fun h => ?_⟩
    · obtain hcss | hcss := hcss
      · cases hk : s.pressed k
        · exact .inl (hcss.trans (by simp [hk]))
        · exact .inr ⟨k, hk, hcss.trans (by simp [hk])⟩
      · exact .inr hcss
    · obtain ⟨hkp', hl⟩ := hkp h
      obtain ⟨hs, hk⟩ : s.kp = false ∧ s.pressed k = false := by simpa [kpPass] using hkp'
      exact ⟨hs, List.forall_mem_cons.mpr ⟨hk, hl⟩⟩

/-- The steps of `RESOLVE`, its passes written with the cells they read. -/
theorem resolveSteps_eq :
    resolveSteps = .rsvb :: ((List.finRange 12).map (fun i => .rsvi (noteField i)) ++ [.rsve]) := by decide

theorem foldl_effect_rsvi (l : List (Fin 12)) (s : State) :
    (l.map (fun i => Instr.rsvi (noteField i))).foldl (fun u i => effect i u) s = passes l s := by
  simp [List.foldl_map, effect, passes]

/-- What the shared word may be in a resolution that began at `s`: the value before it, the step of a pressed cell, or 0
where none is pressed (20_memory.md R39). -/
def WholeStep (s : State) (css : StepSize) : Prop :=
  css = s.css ∨ (∃ i, s.pressed i = true ∧ css = Config.stepSize i) ∨ (css = 0#32 ∧ ∀ i, s.pressed i = false)

/-- After each of the fourteen steps of a resolution the shared word is a whole step. -/
theorem wholeStep_resolve (n : Nat) (s : State) :
    WholeStep s ((resolveSteps.take n).foldl (fun u i => effect i u) s).css := by
  have hpasses : ∀ l, WholeStep s (passes l (beginResolution s)).css := fun l =>
    (passes_css l (beginResolution s)).1.imp_right .inl
  cases n with
  | zero => exact .inl rfl
  | succ n =>
    rw [resolveSteps_eq, List.take_succ_cons, List.foldl_cons]
    obtain hn | hn : n ≤ 12 ∨ 13 ≤ n := by omega
    · rw [List.take_append_of_le_length (by simpa using hn), ← List.map_take, foldl_effect_rsvi]
      exact hpasses _
    · rw [List.take_of_length_le (by simpa using hn), List.foldl_append, foldl_effect_rsvi]
      show WholeStep s (endResolution (passes (List.finRange 12) (beginResolution s))).css
      rw [endResolution_css]
      cases hkp : (passes (List.finRange 12) (beginResolution s)).kp with
      | true => exact hpasses _
      | false =>
        have hnone := ((passes_css _ _).2 hkp).2
        exact .inr (.inr ⟨rfl, fun i => hnone i (List.mem_finRange i)⟩)

/-- Settles O51: however many of the fourteen steps have been taken, and whatever ticks fell between them, the shared
word is what those steps make of it. -/
theorem resolutionShowsOnlyWholeSteps : Obligations.ResolutionShowsOnlyWholeSteps := by
  unfold Obligations.ResolutionShowsOnlyWholeSteps
  intro s ws σ hr hσ hn
  have hplain : PlainSteps resolveSteps := plainSteps_atomics (i := .resolve) rfl
  by_cases hfg : .fg ∈ σ
  · have hexpand : runUnder σ s = runUnder σ (s.withRest (resolveSteps.map encode ++ ws)) :=
      runUnder_expand (i := .resolve) (first := .rsvb) (more := passSteps ++ [Instr.rsve]) rfl (fun _ => rfl) hplain
        hσ hfg hr
    obtain ⟨u, hu, halike, -⟩ :=
      runUnder_plainSteps (s := s.withRest (resolveSteps.map encode ++ ws)) hplain hσ hn rfl
    refine ⟨u, hexpand.trans hu, ?_⟩
    rw [halike.css]
    exact wholeStep_resolve _ (s.withRest (resolveSteps.map encode ++ ws))
  · have hcount : σ.count .fg = 0 := List.count_eq_zero.mpr hfg
    obtain ⟨u, hu, halike, -⟩ :=
      runUnder_plainSteps (is := []) (ws := s.rest) (s := s) (by simp [PlainSteps]) hσ (by simp [hcount]) rfl
    exact ⟨u, hu, .inl (halike.css.trans (by simp))⟩

end Sys2Proof.Machine

end

section
/-! PROOFS of the family 30_encoding.md: the decoder and the encoder, the refusals, FG's turn on a word, and composites
as the atomic steps they stand for. The rules each proof cites stand before it. -/

namespace Sys2Proof.Machine

/-! ### Decoder and encoder -/

/-- Settles O1: the word of each command, its operands included, is read back. -/
theorem decodeEncodeAgree : Obligations.DecodeEncodeAgree := by
  unfold Obligations.DecodeEncodeAgree
  exact fun _ hw => decode_encode hw

/-- Settles O2: the decoder checks the operands, and each row of the map builds the command the word was made of. -/
theorem encodeDecodeAgree : Obligations.EncodeDecodeAgree := by
  unfold Obligations.EncodeDecodeAgree
  exact fun _ _ h => ⟨wf_of_decode h, encode_of_decode h⟩

/-- Settles O6: the decoder, run on each of the words. -/
theorem wordsOfTheMapDecode : Obligations.WordsOfTheMapDecode := by
  unfold Obligations.WordsOfTheMapDecode
  decide

/-- Settles O7: the rows that fit, counted for each of the 256 words. -/
theorem opcodePatternsDisjoint : Obligations.OpcodePatternsDisjoint := by
  unfold Obligations.OpcodePatternsDisjoint
  decide

/-! ### Refusals -/

/-- The words no row of the map fits are those of R49 (30_encoding.md). -/
theorem decode_eq_reservedWord_iff : ∀ w : CommandWord, decode w = .error .reservedWord ↔
    w.toNat = 0x07 ∨ (0x1D ≤ w.toNat ∧ w.toNat ≤ 0x1F) ∨ (0x30 ≤ w.toNat ∧ w.toNat ≤ 0x3F) ∨
      (0x64 ≤ w.toNat ∧ w.toNat ≤ 0x7F) ∨ (0x82 ≤ w.toNat ∧ w.toNat ≤ 0x8F) ∨ 0xB0 ≤ w.toNat := by decide

/-- The words whose operand names no row or no note are those of R50 (30_encoding.md). -/
theorem decode_eq_reservedOperand_iff : ∀ w : CommandWord, decode w = .error .reservedOperand ↔
    (0x13 ≤ w.toNat ∧ w.toNat ≤ 0x17) ∨ (0x4B ≤ w.toNat ∧ w.toNat ≤ 0x4F) ∨ (0x2C ≤ w.toNat ∧ w.toNat ≤ 0x2F) ∨
      (0x9C ≤ w.toNat ∧ w.toNat ≤ 0x9F) ∨ (0xAC ≤ w.toNat ∧ w.toNat ≤ 0xAF) := by decide

/-- FG's turn, listed or not, on a word the decoder refuses is refused with the decoder's reason. -/
theorem step_refused {s : State} {w : CommandWord} {ws : List CommandWord} {σ : List Turn} {e : DecodeError}
    (hr : s.rest = w :: ws) (hs : s.sched = [] ∨ s.sched = .fg :: σ) (hd : decode w = .error e) :
    step s = .refused (refusalOf e) := by
  have hrefill : (refill s).rest = w :: ws := by rw [refill_of_cons hr, hr]
  unfold step fetch
  obtain hs | hs := hs
  · rw [hs]
    simp only [fetchWord_refused hrefill hd]
  · rw [hs]
    simp only [fetchWord_refused (s := s.under σ) hrefill hd]

/-- Settles O3: the decoder's reserved words, and FG's turn on a word it refuses. -/
theorem reservedWordsRefused : Obligations.ReservedWordsRefused := by
  unfold Obligations.ReservedWordsRefused
  exact fun w => ⟨decode_eq_reservedWord_iff w, fun _ _ _ hr hs hd => step_refused hr hs hd⟩

/-- Settles O4: the decoder's reserved operands, FG's turn on a word it refuses, and every address read back. -/
theorem reservedOperandsRefused : Obligations.ReservedOperandsRefused := by
  unfold Obligations.ReservedOperandsRefused
  refine ⟨fun w => ⟨decode_eq_reservedOperand_iff w, fun _ _ _ hr hs hd => step_refused hr hs hd⟩, fun a v => ?_⟩
  exact ⟨decode_encode rfl, decode_encode rfl, decode_encode rfl⟩

theorem rowOf_eq_none {r : BitVec 3} : rowOf r = none ↔ 3 ≤ r.toNat := by
  simp [rowOf]

theorem noteOf_eq_none {i : NoteField} : noteOf i = none ↔ 12 ≤ i.toNat := by
  simp [noteOf]

/-- Settles O5: the operand names no row or no note. -/
theorem reservedOperandTermsRefused : Obligations.ReservedOperandTermsRefused := by
  unfold Obligations.ReservedOperandTermsRefused
  refine fun s => ⟨fun r hr => ?_, fun i hi => ?_⟩
  · simp [exec, execSmp, execScanrow, rowOf_eq_none.mpr hr]
  · simp [exec, execRsvi, execKeydn, execKeyup, noteOf_eq_none.mpr hi]

/-! ### FG's turn on a word -/

/-- Settles O8: FG's turn, listed or not. -/
theorem stepRunsTheDecodedCommand : Obligations.StepRunsTheDecodedCommand := by
  unfold Obligations.StepRunsTheDecodedCommand
  exact fun s w ws i hr hd => ⟨fun hs => step_unscheduled hs hr hd, fun σ hs => step_fg hs hr hd⟩

/-- Well-formed commands with the same word are the same (30_encoding.md R55). -/
theorem encode_inj {i j : Instr} (hi : i.wf = true) (hj : j.wf = true) : encode i = encode j ↔ i = j := by
  refine ⟨fun h => ?_, congrArg encode⟩
  exact Except.ok.inj ((decode_encode hi).symm.trans ((congrArg decode h).trans (decode_encode hj)))

/-- Settles O11: the placed word is FG's next, its turn is the next one, and the word that arms the clock is `TICK`'s. -/
theorem placedWordIsRunNext : Obligations.PlacedWordIsRunNext := by
  unfold Obligations.PlacedWordIsRunNext
  intro s n w i h
  have hd : decode (tableWord n w) = .ok i := by
    unfold decodeTableWord at h
    cases hdec : decode (tableWord n w) with
    | ok j => rw [hdec] at h; injection h with h; rw [h]
    | error e => rw [hdec] at h; cases h
  have htick : (tableWord n w == encode .tick) = (i == .tick) := by
    rw [← encode_of_decode hd, Bool.eq_iff_iff, beq_iff_eq, beq_iff_eq, encode_inj (wf_of_decode hd) rfl]
  rw [← htick]
  exact step_fg (s := presentWord (tableWord n w) s) rfl rfl hd

/-! ### Composites -/

/-- A well-formed composite is its first step run with the words of the others in its place (30_encoding.md R51). -/
theorem exec_composite {i : Instr} (hk : i.kind = .composite) (hw : i.wf = true) :
    ∃ first more, atomics i = first :: more ∧
      ∀ s, exec i s = exec first (s.withRest (more.map encode ++ s.rest)) := by
  cases i with
  | scanrow r =>
    obtain ⟨q, hq⟩ := rowOf_of_legal hw
    refine ⟨_, _, rfl, fun s => ?_⟩
    simp only [exec, execScanrow, hq]
    rfl
  | selrow _ | setout _ _ | resolve | scan | startup | fgiter => exact ⟨_, _, rfl, fun _ => rfl⟩
  | _ => cases hk

/-- Settles O13: each composite's expansion, and its length. -/
theorem compositeStandsForItsSteps : Obligations.CompositeStandsForItsSteps := by
  unfold Obligations.CompositeStandsForItsSteps
  refine ⟨fun i hk hw => ?_, fun _ _ _ => ⟨rfl, rfl, rfl, rfl, rfl, rfl, rfl⟩⟩
  obtain ⟨first, more, hi, hexec⟩ := exec_composite hk hw
  have hatomic : ∀ j ∈ first :: more, j.kind = .atomic := hi ▸ fun j hj => ((Laws.expansion i hw).1 j hj).1
  exact ⟨first, more, hi, hatomic first (List.mem_cons_self ..), fun j hj => hatomic j (List.mem_cons_of_mem _ hj),
    hexec⟩

/-! ### Runs over commands -/

/-- A well-formed command of FG runs its first atomic step and leaves the others in the stream (30_encoding.md R51). -/
theorem exec_foreground {i : Instr} (hw : i.wf = true) (ha : i.agent = .fg) :
    ∃ first more, atomics i = first :: more ∧
      ∀ s, exec i s = .next (advanceFg (effect first (pushSteps more s))) := by
  cases hk : i.kind with
  | atomic => exact ⟨i, [], atomics_of_atomic hk, exec_atomic hk hw⟩
  | composite =>
    obtain ⟨first, more, hi, hexec⟩ := exec_composite hk hw
    obtain ⟨hk', hw'⟩ := (Laws.expansion i hw).1 first (by simp [hi])
    exact ⟨first, more, hi, fun s => (hexec s).trans (exec_atomic hk' hw' _)⟩
  | event => cases i <;> simp_all [Instr.kind, Instr.agent]

theorem flatMap_atomics_of_atomic {is : List Instr} (h : ∀ j ∈ is, j.kind = .atomic) : is.flatMap atomics = is := by
  induction is with
  | nil => rfl
  | cons j is ih =>
    obtain ⟨hj, his⟩ := List.forall_mem_cons.mp h
    rw [List.flatMap_cons, atomics_of_atomic hj, ih his, List.singleton_append]

/-- FG's turn on a command: the effect of its first atomic step, whatever turns follow. -/
theorem runUnder_foreground {s : State} {i first : Instr} {more : List Instr} {ws : List CommandWord} {σ : List Turn}
    (hw : i.wf = true) (hexec : ∀ s, exec i s = .next (advanceFg (effect first (pushSteps more s))))
    (hr : s.rest = encode i :: ws) :
    runUnder (.fg :: σ) s = runUnder σ (advanceFg (effect first (pushSteps more (s.withRest ws)))) := by
  have hstep : step (s.under (.fg :: σ)) = exec i ((s.withRest ws).under σ) := step_fg rfl hr (decode_encode hw)
  rw [exec_sched σ (hexec _)] at hstep
  rw [runUnder_cons hstep]
  rfl

/-- A run over commands of FG, composites among them, with ticks anywhere between their steps: the effects of their
atomic steps in order (30_encoding.md R51). -/
theorem runUnder_commands {is : List Instr} {σ : List Turn} {s : State} {ws : List CommandWord}
    (his : ∀ i ∈ is, i.wf = true ∧ i.agent = .fg) (hσ : OnlyTicks σ)
    (hn : σ.count .fg ≤ (is.flatMap atomics).length) (hr : s.rest = is.map encode ++ ws) :
    ∃ t, runUnder σ s = .next t ∧
      AlikeForFg (((is.flatMap atomics).take (σ.count .fg)).foldl (fun u i => effect i u) s) t := by
  induction σ generalizing s is with
  | nil => exact ⟨_, rfl, alike_under s []⟩
  | cons u σ ih =>
    obtain ⟨hu, hσ'⟩ := List.forall_mem_cons.mp hσ
    obtain rfl | rfl := hu
    · rw [List.count_cons_self] at hn ⊢
      cases is with
      | nil => simp at hn
      | cons i is =>
        obtain ⟨⟨hw, ha⟩, his'⟩ := List.forall_mem_cons.mp his
        obtain ⟨first, more, hi, hexec⟩ := exec_foreground hw ha
        have hmore : ∀ j ∈ more, j.kind = .atomic ∧ j.wf = true := fun j hj =>
          (Laws.expansion i hw).1 j (by rw [hi]; exact List.mem_cons_of_mem _ hj)
        have hsteps : (more ++ is).flatMap atomics = more ++ is.flatMap atomics := by
          rw [List.flatMap_append, flatMap_atomics_of_atomic fun j hj => (hmore j hj).1]
        rw [List.flatMap_cons, hi, List.cons_append, ← hsteps] at hn ⊢
        rw [runUnder_foreground hw hexec hr]
        have halike : AlikeForFg (effect first s)
            (advanceFg (effect first (pushSteps more (s.withRest (is.map encode ++ ws))))) :=
          (((alike_withRest s _).trans (alike_pushSteps more _)).effect first).trans (alike_advanceFg _)
        obtain ⟨t, ht, htalike⟩ := ih
          (s := advanceFg (effect first (pushSteps more (s.withRest (is.map encode ++ ws)))))
          (fun j hj => (List.mem_append.mp hj).elim (fun h => ⟨(hmore j h).2, agent_of_atomic (hmore j h).1⟩) (his' j))
          hσ' (by simpa using hn) (by simp [effect_else])
        exact ⟨t, ht, (alike_foldl halike _).trans htalike⟩
    · rw [List.count_cons_of_ne (by decide)] at hn ⊢
      rw [runUnder_sc]
      have halike : AlikeForFg s (if s.armed then takeTick s else s) := by
        split
        · exact alike_takeTick s
        · exact .refl s
      obtain ⟨t, ht, htalike⟩ :=
        ih (s := if s.armed then takeTick s else s) his hσ' hn (by split <;> exact hr)
      exact ⟨t, ht, (alike_foldl halike _).trans htalike⟩

/-! ### A strobe, step by step -/

/-- The state after the first `n` steps of `SETOUT a, v` (40_mux_controller.md R66). -/
def strobe (a : MuxAddr) (v : Bool) (n : Nat) (s : State) : State :=
  ((setoutSteps a v).take n).foldl (fun u i => effect i u) s

section
variable (a : MuxAddr) (v : Bool) {n : Nat} (s : State)

/-- Enable is high from the strobe's `ENH` to its second `ENL`. -/
theorem strobe_en (h1 : 1 ≤ n) (h6 : n ≤ 6) : (strobe a v n s).en = decide (n = 4 ∨ n = 5) := by
  interval_cases n <;> rfl

theorem strobe_addr (h6 : n ≤ 6) : (strobe a v n s).addr = if 2 ≤ n then a else s.addr := by
  interval_cases n <;> rfl

theorem strobe_data (h6 : n ≤ 6) : (strobe a v n s).data = if 3 ≤ n then v else s.data := by
  interval_cases n <;> rfl

end

/-- A delay of two microseconds or more gives the driven line the data level (40_mux_controller.md R69). -/
theorem elapse_line_driven {n : Nat} {s : State} {k : Fin 5} (hn : 2 ≤ n) (h : drivenLine s = some k) :
    (elapse n s).line k = s.data := by
  have hsettle : 2 ≤ min 3 (s.settle.val + n) := by omega
  rw [elapse_of_some n h, if_pos hsettle]
  exact getLsbD_writeBit_same _ _ _ k.isLt

/-- Up to its `DAT` a strobe moves no line: its `ENL` comes first. -/
theorem strobe_line_before (a : MuxAddr) (v : Bool) {n : Nat} (s : State) (k : Fin 5) (h3 : n ≤ 3) :
    (strobe a v n s).line k = s.line k := by
  have henl : (effect .enl s).line k = s.line k := effect_line_undriven (.inl rfl)
  have hadr : (effect (.adr a) (effect .enl s)).line k = s.line k := (effect_line_undriven (.inl rfl)).trans henl
  interval_cases n
  · rfl
  · exact henl
  · exact hadr
  · exact (effect_line_undriven (i := .dat v) (.inl rfl)).trans hadr

/-- From its hold on a strobe has its line at the data level. -/
theorem strobe_line_after {a : MuxAddr} (v : Bool) {n : Nat} (s : State) {k : Fin 5} (ha : a.toNat = 3 + k.val)
    (h5 : 5 ≤ n) (h6 : n ≤ 6) : (strobe a v n s).line k = v := by
  have hdriven : drivenLine (strobe a v 4 s) = some k := drivenLine_eq_some.mpr ⟨rfl, ha⟩
  have hhold : (strobe a v 5 s).line k = v := elapse_line_driven (n := 2) (s := strobe a v 4 s) (by decide) hdriven
  interval_cases n
  · exact hhold
  · exact (effect_line_undriven (i := .enl) (s := strobe a v 5 s) (.inl rfl)).trans hhold

theorem strobe_zero (a : MuxAddr) (v : Bool) (s : State) : strobe a v 0 s = s := rfl

/-- A strobe has six steps. -/
theorem strobe_of_le {a : MuxAddr} {v : Bool} {n : Nat} {s : State} (h : 6 ≤ n) : strobe a v n s = strobe a v 6 s := by
  rw [strobe, List.take_of_length_le (by simpa [setoutSteps] using h)]
  rfl

/-! ### PULSE -/

/-- The steps of `PULSE a` are those of its two strobes (30_encoding.md R54). -/
theorem foldl_effect_pulse (a : MuxAddr) (n : Nat) (s : State) :
    (((pulse a).flatMap atomics).take n).foldl (fun u i => effect i u) s =
      strobe a true (n - 6) (strobe a false n s) := by
  have hsteps : (pulse a).flatMap atomics = setoutSteps a false ++ setoutSteps a true := rfl
  rw [hsteps, List.take_append, List.foldl_append]
  rfl

/-- Settles O21: up to step 6 the pins and the line are those of the first strobe; from then on those of the second, which
starts where the first ends. -/
theorem pulseIsTwoStrobeCycles : Obligations.PulseIsTwoStrobeCycles := by
  unfold Obligations.PulseIsTwoStrobeCycles
  intro a s ws hr n h1 h12
  obtain ⟨t, ht, halike⟩ := runUnder_commands (is := pulse a) (s := s) (by simp [pulse, Instr.wf, Instr.agent])
    (onlyTicks_fgTurns n) (by rw [count_fgTurns]; exact h12) hr
  rw [count_fgTurns, foldl_effect_pulse] at halike
  have hline : ∀ k, t.line k = (strobe a true (n - 6) (strobe a false n s)).line k := fun k =>
    congrArg (fun outl : BitVec 5 => outl.getLsbD k.val) halike.outl
  refine ⟨t, ht, ?_⟩
  rw [halike.en, halike.addr, halike.data]
  obtain hn | ⟨m, rfl, hm⟩ : n ≤ 6 ∨ ∃ m, n = 6 + m ∧ 1 ≤ m := by
    obtain hn | hn : n ≤ 6 ∨ 7 ≤ n := by omega
    · exact .inl hn
    · exact .inr ⟨n - 6, by omega, by omega⟩
  · simp only [Nat.sub_eq_zero_of_le hn, strobe_zero] at hline ⊢
    rw [strobe_en a false s h1 hn, strobe_addr a false s hn, strobe_data a false s hn]
    refine ⟨?_, fun h2 => if_pos h2, fun h3 => ?_, fun k ha => ⟨fun h5 _ => ?_, fun h11 => by omega⟩⟩
    · simp only [List.mem_cons, List.not_mem_nil, or_false, decide_eq_decide]
      omega
    · rw [if_pos h3, decide_eq_false (by omega)]
    · exact (hline k).trans (strobe_line_after false s ha h5 hn)
  · have hm6 : m ≤ 6 := by omega
    simp only [Nat.add_sub_cancel_left, strobe_of_le (Nat.le_add_right 6 m)] at hline ⊢
    rw [strobe_en a true _ hm hm6, strobe_addr a true _ hm6, strobe_data a true _ hm6]
    refine ⟨?_, fun _ => ?_, fun _ => ?_, fun k ha => ⟨fun _ h9 => ?_, fun h11 => ?_⟩⟩
    · simp only [List.mem_cons, List.not_mem_nil, or_false, decide_eq_decide]
      omega
    · exact ite_self a
    · rw [strobe_data a false s le_rfl]
      split <;> simp <;> omega
    · exact (hline k).trans ((strobe_line_before a true _ k (by omega)).trans
        (strobe_line_after false s ha (by decide) le_rfl))
    · exact (hline k).trans (strobe_line_after true _ ha (by omega) hm6)

/-! ### Sampling a row -/

/-- On a settled row a sampling writes that row's keys, inverted, and draws nothing (41_key_matrix_scanner.md R77). -/
theorem sampleRow_of_settled {s : State} {p : Fin 3} (q : Fin 3) (h : settledRow s = some p) :
    sampleRow q s = { s with km := writeRow s.km q fun c => !s.held (cellIndex p c) } := by
  have hcolumn : column s = fun c => !s.held (cellIndex p c) := funext (column_of_settled h)
  unfold sampleRow
  rw [hcolumn, h]
  rfl

/-- The state after `SCANROW q`: the row is selected and settled, and its cells show its keys
(41_key_matrix_scanner.md R78). -/
def scannedRow (q : Fin 3) (s : State) : State :=
  { s with
    addr := BitVec.ofNat 3 q.val
    en := true
    settle := 3
    km := writeRow s.km q fun c => !s.held (cellIndex q c) }

/-- While a row is addressed no line is driven, so the four steps touch none, and the row has settled when it is
sampled. -/
theorem foldl_effect_scanrow (q : Fin 3) (s : State) :
    (scanrowSteps (BitVec.ofNat 3 q.val)).foldl (fun u i => effect i u) s = scannedRow q s := by
  have haddr : (BitVec.ofNat 3 q.val).toNat = q.val := by rw [BitVec.toNat_ofNat]; omega
  have hundriven : ∀ u : State, u.addr = BitVec.ofNat 3 q.val → drivenLine u = none := fun u hu =>
    drivenLine_eq_none.mpr (.inr (by rw [hu, haddr]; exact q.isLt))
  have hadr : effect (.adr (BitVec.ofNat 3 q.val)) s = { s with addr := BitVec.ofNat 3 q.val, settle := 0 } :=
    busTouch_of_none (hundriven _ rfl)
  have henh : ∀ u : State, u.addr = BitVec.ofNat 3 q.val → effect .enh u = { u with en := true, settle := 0 } :=
    fun u hu => busTouch_of_none (hundriven _ hu)
  have hdly : ∀ u : State, u.addr = BitVec.ofNat 3 q.val → u.settle = 0 → effect .dly3 u = { u with settle := 3 } :=
    fun u hu h0 => (elapse_of_none 3 (hundriven u hu)).trans (by rw [h0]; rfl)
  have hsmp : effect (.smp (BitVec.ofNat 3 q.val)) = sampleRow q := by simp only [effect, rowOf_eq_some.mpr haddr]
  show effect (.smp _) (effect .dly3 (effect .enh (effect (.adr _) s))) = _
  rw [hadr, henh _ rfl, hdly _ rfl rfl, hsmp, sampleRow_of_settled q (settledRow_eq_some.mpr ⟨rfl, rfl, haddr⟩)]
  rfl

/-- A scanned row's cells show its keys; the cells of the other rows are as they were. -/
theorem scannedRow_cell (q r : Fin 3) (c : Fin 4) (s : State) : (scannedRow q s).km.getLsbD (cellIndex r c).val =
    if r = q then !s.held (cellIndex r c) else s.km.getLsbD (cellIndex r c).val := by
  split
  next h =>
    subst h
    exact writeRow_cell _ _ _ c
  next h =>
    refine writeRow_other _ _ _ _ fun hdiv => h (Fin.ext ?_)
    simp only [cellIndex] at hdiv
    omega

/-! ### The resolution -/

/-- The state after `RESOLVE` (41_key_matrix_scanner.md R82). -/
def resolution (s : State) : State := endResolution (passes (List.finRange 12) (beginResolution s))

theorem foldl_effect_resolve (s : State) : resolveSteps.foldl (fun u i => effect i u) s = resolution s := by
  rw [resolveSteps_eq, List.foldl_cons, List.foldl_append, foldl_effect_rsvi]
  rfl

theorem passes_cons (k : Fin 12) (l : List (Fin 12)) (s : State) : passes (k :: l) s = passes l (resolvePass k s) := rfl

/-- Passes write the step size, the note and the flag only. -/
theorem passes_else (l : List (Fin 12)) (s : State) :
    passes l s = { s with css := (passes l s).css, note := (passes l s).note, kp := (passes l s).kp } := by
  induction l generalizing s with
  | nil => rfl
  | cons k l ih => exact (ih (resolvePass k s)).trans rfl

/-- A resolution writes the step size, the note and the flag only. -/
theorem resolution_else (s : State) : resolution s =
    { s with css := (resolution s).css, note := (resolution s).note, kp := (resolution s).kp } := by
  unfold resolution
  rw [passes_else]
  rfl

/-- Passes over released cells change nothing (41_key_matrix_scanner.md R80). -/
theorem passes_of_released {l : List (Fin 12)} {s : State} (h : ∀ i ∈ l, s.pressed i = false) : passes l s = s := by
  induction l with
  | nil => rfl
  | cons k l ih =>
    obtain ⟨hk, hl⟩ := List.forall_mem_cons.mp h
    have hpass : resolvePass k s = s := by simp [resolvePass, kpPass, hk]
    rw [passes_cons, hpass, ih hl]

/-- Passes in ascending order leave the highest pressed cell sounding (41_key_matrix_scanner.md R84, R85). -/
theorem passes_of_highest {l : List (Fin 12)} {s : State} {m : Fin 12} (hl : l.Pairwise (· < ·)) (hm : m ∈ l)
    (hpressed : s.pressed m = true) (hmax : ∀ i, s.pressed i = true → i ≤ m) :
    (passes l s).css = Config.stepSize m ∧ (passes l s).note = some m ∧ (passes l s).kp = true := by
  induction l generalizing s with
  | nil => cases hm
  | cons k l ih =>
    obtain ⟨hk, hl'⟩ := List.pairwise_cons.mp hl
    rw [passes_cons]
    obtain rfl | hm := List.mem_cons.mp hm
    · have hreleased : ∀ i ∈ l, (resolvePass m s).pressed i = false := fun i hi =>
        Bool.eq_false_iff.mpr fun hp => absurd (hk i hi) (hmax i hp).not_gt
      rw [passes_of_released hreleased]
      simp [hpressed]
    · exact ih hl' hm hpressed hmax

/-- A resolution takes the highest pressed cell, or silence (41_key_matrix_scanner.md R84 to R86). -/
theorem resolved_resolution (s : State) : Resolved s.pressed (resolution s) := by
  refine ⟨fun hnone => ?_, fun m hm hmax => ?_⟩
  · rw [resolution, passes_of_released (s := beginResolution s) fun i _ => hnone i]
    exact ⟨rfl, rfl, rfl⟩
  · obtain ⟨hcss, hnote, hkp⟩ := passes_of_highest (s := beginResolution s)
      (List.sortedLT_finRange 12).pairwise (List.mem_finRange m) hm hmax
    simp [resolution, hcss, hnote, hkp, kpNone]

/-! ### A scan -/

/-- The state after `KMNEW` and the three rows of a scan. -/
def scannedMatrix (s : State) : State := scannedRow 2 (scannedRow 1 (scannedRow 0 (recreateMatrix s)))

theorem foldl_effect_scan (s : State) :
    scanSteps.foldl (fun u i => effect i u) s = resolution (scannedMatrix s) := by
  have hsteps : scanSteps = .kmnew :: (scanrowSteps (BitVec.ofNat 3 (0 : Fin 3).val) ++
      scanrowSteps (BitVec.ofNat 3 (1 : Fin 3).val) ++ scanrowSteps (BitVec.ofNat 3 (2 : Fin 3).val) ++
      resolveSteps) := rfl
  rw [hsteps, List.foldl_cons]
  simp only [List.foldl_append, foldl_effect_scanrow, foldl_effect_resolve]
  rfl

/-- After the three rows every cell 0 to 11 shows its key. -/
theorem scannedMatrix_cell (s : State) (i : Fin 12) : (scannedMatrix s).km.getLsbD i.val = !s.held i := by
  obtain ⟨r, c, rfl⟩ := exists_cellIndex i
  have hr : r = 2 ∨ r = 1 ∨ r = 0 := by omega
  unfold scannedMatrix
  simp only [scannedRow_cell]
  obtain rfl | rfl | rfl := hr <;> rfl

/-- What a scan that began at `s` leaves (41_key_matrix_scanner.md R83): the bus in read mode on row 2, the keys in the
matrix and the highest held key sounding; the lines and what is outside are as they were. -/
structure Scanned (s u : State) : Prop where
  addr : u.addr = 2#3
  en : u.en = true
  settle : u.settle.val = 3
  data : u.data = s.data
  outl : u.outl = s.outl
  cells : ∀ i : Fin 12, u.km.getLsbD i.val = !s.held i
  sound : Resolved s.held u
  outside : SameOutside s u

theorem Scanned.of_alike {s t u : State} (h : Scanned s t) (ha : AlikeForFg t u) : Scanned s u := by
  rw [alike_iff.mp ha]
  exact ⟨h.addr, h.en, h.settle, h.data, h.outl, h.cells, h.sound, h.outside⟩

theorem scanned_resolution (s : State) : Scanned s (resolution (scannedMatrix s)) := by
  have hpressed : (scannedMatrix s).pressed = s.held := funext fun i => by
    rw [State.pressed, scannedMatrix_cell, Bool.not_not]
  have hsound := resolved_resolution (scannedMatrix s)
  rw [hpressed] at hsound
  rw [resolution_else] at hsound ⊢
  exact ⟨rfl, rfl, rfl, rfl, rfl, scannedMatrix_cell s, hsound, rfl, rfl, rfl⟩

/-- Settles O52: ticks leave all but the oscillator to FG's steps, and those are the scan's. -/
theorem scanUnderPreemption : Obligations.ScanUnderPreemption := by
  unfold Obligations.ScanUnderPreemption
  intro s ws σ hr hσ hn
  have hplain : PlainSteps scanSteps := plainSteps_atomics (i := .scan) rfl
  have hfg : .fg ∈ σ := List.count_pos_iff.mp (by omega)
  have hexpand : runUnder σ s = runUnder σ (s.withRest (scanSteps.map encode ++ ws)) :=
    runUnder_expand (i := .scan) rfl (fun _ => rfl) hplain hσ hfg hr
  obtain ⟨u, hu, halike, hwent, -⟩ :=
    runUnder_allSteps (s := s.withRest (scanSteps.map encode ++ ws)) hplain hσ hn (by decide) rfl
  rw [foldl_effect_scan] at halike
  obtain ⟨addr, en, settle, data, outl, cells, sound, outside⟩ := (scanned_resolution _).of_alike halike
  exact ⟨u, hexpand.trans hu, addr, en, settle, data, outl, cells, sound, outside, hwent⟩

end Sys2Proof.Machine

end

section
/-! PROOFS of the family 40_mux_controller.md: the pin writes, the delays, and the two composites of the bus. The rules
each proof cites stand before it. -/

namespace Sys2Proof.Machine

/-! ### The line that is addressed under asserted enable -/

/-- The driven line, where there is one, is the one whose number the address is (20_memory.md R31, 10_state.md R14). -/
theorem drivenLine_cases (s : State) :
    (∃ k : Fin 5, drivenLine s = some k ∧ s.en = true ∧ 3 ≤ s.addr.toNat ∧ s.addr.toNat - 3 = k.val) ∨
      (drivenLine s = none ∧ ¬(s.en = true ∧ 3 ≤ s.addr.toNat)) := by
  cases hd : drivenLine s with
  | none =>
    obtain hen | haddr := drivenLine_eq_none.mp hd
    · exact .inr ⟨rfl, fun ⟨hhigh, _⟩ => absurd (hhigh.symm.trans hen) (by decide)⟩
    · exact .inr ⟨rfl, fun ⟨_, hline⟩ => absurd haddr hline.not_gt⟩
  | some k =>
    obtain ⟨hen, haddr⟩ := drivenLine_eq_some.mp hd
    exact .inl ⟨k, rfl, hen, by omega, by omega⟩

/-- `BusTouch()` by the pins alone: under asserted enable an addressed line takes the next draw
(40_mux_controller.md R69). -/
theorem busTouch_eq (s : State) : busTouch s = { s with
    settle := 0
    outl := if s.en = true ∧ 3 ≤ s.addr.toNat then writeBit s.outl (s.addr.toNat - 3) (Config.anyBit s.draws) else s.outl
    draws := if s.en = true ∧ 3 ≤ s.addr.toNat then s.draws + 1 else s.draws } := by
  obtain ⟨k, hd, hen, haddr, hk⟩ | ⟨hd, hnot⟩ := drivenLine_cases s
  · rw [busTouch_of_some hd, if_pos ⟨hen, haddr⟩, if_pos ⟨hen, haddr⟩, hk]
  · rw [busTouch_of_none hd, if_neg hnot, if_neg hnot]

/-- `Elapse(n)` by the pins alone: under asserted enable an addressed line takes the data level once it has been held
for two microseconds (40_mux_controller.md R69). -/
theorem elapse_eq (n : Nat) (s : State) : elapse n s = { s with
    settle := settleAfter s.settle n
    outl := if s.en = true ∧ 3 ≤ s.addr.toNat ∧ 2 ≤ (settleAfter s.settle n).val
      then writeBit s.outl (s.addr.toNat - 3) s.data else s.outl } := by
  obtain ⟨k, hd, hen, haddr, hk⟩ | ⟨hd, hnot⟩ := drivenLine_cases s
  · simp only [elapse_of_some n hd, settleAfter_val, hen, haddr, hk, true_and]
  · rw [elapse_of_none n hd, if_neg fun ⟨hen, haddr, _⟩ => hnot ⟨hen, haddr⟩]

/-! ### Pin writes -/

/-- An atomic step whose effect is known. -/
theorem exec_of_effect {i : Instr} {s t : State} (hk : i.kind = .atomic) (hw : i.wf = true) (h : effect i s = t) :
    exec i s = .next (advanceFg t) := by
  rw [exec_atomic hk hw, h]

/-- Settles O14: with enable low no line is driven. -/
theorem enlDeassertsEnable : Obligations.EnlDeassertsEnable := by
  unfold Obligations.EnlDeassertsEnable
  exact ⟨decode_encode (i := .enl) rfl, fun s =>
    exec_of_effect rfl rfl (busTouch_of_none (drivenLine_eq_none.mpr (.inl rfl)))⟩

/-- Settles O15: a pin write with enable high; the level is the draw. -/
theorem enhAssertsEnable : Obligations.EnhAssertsEnable := by
  unfold Obligations.EnhAssertsEnable
  intro s
  have htouch := busTouch_eq { s with en := true }
  simp only [true_and] at htouch
  exact ⟨Config.anyBit s.draws, exec_of_effect rfl rfl htouch⟩

/-- Settles O16: a pin write with the new address; the level is the draw. -/
theorem adrDrivesTheAddressLines : Obligations.AdrDrivesTheAddressLines := by
  unfold Obligations.AdrDrivesTheAddressLines
  exact fun a s => ⟨Config.anyBit s.draws, _, exec_atomic rfl rfl s, fun _ => rfl,
    congrArg advanceFg (busTouch_eq { s with addr := a })⟩

/-- Settles O17: a pin write with the new data level; the level the line takes is the draw. -/
theorem datDrivesTheDataLine : Obligations.DatDrivesTheDataLine := by
  unfold Obligations.DatDrivesTheDataLine
  exact fun d s => ⟨Config.anyBit s.draws, exec_of_effect rfl rfl (busTouch_eq { s with data := d })⟩

/-! ### Delays -/

/-- The three commands that let time pass, and for how long (40_mux_controller.md R64, R65,
45_foreground_sequencer.md R139). -/
theorem exec_delay {i : Instr} {n : Nat} (h : (i, n) ∈ [(Instr.dly2, 2), (Instr.dly3, 3), (Instr.wait100, 100000)])
    (s : State) : exec i s = .next (advanceFg (elapse n s)) := by
  simp only [List.mem_cons, Prod.mk.injEq, List.not_mem_nil, or_false] at h
  obtain ⟨rfl, rfl⟩ | ⟨rfl, rfl⟩ | ⟨rfl, rfl⟩ := h <;> exact exec_atomic rfl rfl s

/-- Settles O18: each of the three is its time passing. -/
theorem delaysLetTheBusSettle : Obligations.DelaysLetTheBusSettle := by
  unfold Obligations.DelaysLetTheBusSettle
  intro i n hi s
  refine ⟨settleAfter s.settle n, settleAfter_val _ _, ?_⟩
  rw [exec_delay hi, elapse_eq]

/-! ### Composites of the bus -/

theorem AlikeForFg.line {s t : State} (h : AlikeForFg s t) (k : Fin 5) : t.line k = s.line k :=
  congrArg (fun outl : BitVec 5 => outl.getLsbD k.val) h.outl

/-- A strobe moves no line but the addressed one: up to its `DAT` enable is low, and from then on the address is `a`. -/
theorem strobe_line_other {a : MuxAddr} (v : Bool) (s : State) {k : Fin 5} (ha : a.toNat ≠ 3 + k.val) :
    (strobe a v 6 s).line k = s.line k := by
  have hstep : ∀ {i : Instr} {u : State}, (effect i u).addr = a → (effect i u).line k = u.line k :=
    fun haddr => effect_line_undriven (.inr (by rwa [haddr]))
  calc (strobe a v 6 s).line k
    _ = (strobe a v 5 s).line k := hstep (i := .enl) rfl
    _ = (strobe a v 4 s).line k := hstep (i := .dly2) rfl
    _ = (strobe a v 3 s).line k := hstep (i := .enh) rfl
    _ = s.line k := strobe_line_before a v s k le_rfl

/-- Settles O19: the six steps are a strobe, which leaves line `a` at the data level and writes nothing but the bus. -/
theorem setoutIsOneStrobeCycle : Obligations.SetoutIsOneStrobeCycle := by
  unfold Obligations.SetoutIsOneStrobeCycle
  intro a v s
  obtain ⟨t, u, ht, hu, halike, hwent, hosc⟩ := composite_run (i := .setout a v) (s := s)
    (plainSteps_atomics (i := .setout a v) rfl) rfl
  replace halike : AlikeForFg (strobe a v 6 s) u := halike
  refine ⟨t, u, ht, hu, halike.en, halike.addr, halike.data, halike.settle, fun k => ?_, ⟨halike.km, halike.kp⟩,
    ⟨halike.css, halike.note⟩, hosc, ⟨halike.armed, halike.led, halike.key⟩, hwent⟩
  rw [halike.line]
  split
  next ha => exact strobe_line_after v s ha (by decide) le_rfl
  next ha => exact strobe_line_other v s ha

/-- Settles O20: the two steps write the address and enable, and drive line `a` at most. -/
theorem selrowLeavesReadMode : Obligations.SelrowLeavesReadMode := by
  unfold Obligations.SelrowLeavesReadMode
  intro a s
  obtain ⟨t, u, ht, hu, halike, hwent, hosc⟩ := composite_run (i := .selrow a) (s := s)
    (plainSteps_atomics (i := .selrow a) rfl) rfl
  replace halike : AlikeForFg (effect .enh (effect (.adr a) s)) u := halike
  have haddr : u.addr = a := halike.addr
  have hen : u.en = true := halike.en
  refine ⟨t, u, ht, hu, haddr, hen, halike.data, halike.settle, fun q => ?_, fun k ha => ?_, ⟨halike.km, halike.kp⟩,
    ⟨halike.css, halike.note⟩, hosc, ⟨halike.armed, halike.led, halike.key⟩, hwent⟩
  · rw [rowsel_eq_some, haddr, hen]
    exact and_iff_right rfl
  · calc u.line k
      _ = (effect .enh (effect (.adr a) s)).line k := halike.line k
      _ = (effect (.adr a) s).line k := effect_line_undriven (.inr ha)
      _ = s.line k := effect_line_undriven (.inr ha)

end Sys2Proof.Machine

end

section
/-! PROOFS of the family 41_key_matrix_scanner.md: the sampling of rows, the passes of a resolution, and the three
composites of the scanner. The rules each proof cites stand before it. -/

namespace Sys2Proof.Machine

/-! ### Atomic steps of the scanner -/

/-- Settles O22: the matrix takes the draw. -/
theorem kmnewRecreatesTheMatrix : Obligations.KmnewRecreatesTheMatrix := by
  unfold Obligations.KmnewRecreatesTheMatrix
  exact fun s => ⟨Config.any 32 s.draws, exec_of_effect rfl rfl rfl⟩

/-- Settles O24: the step is its one write. -/
theorem rsvbClearsTheFlag : Obligations.RsvbClearsTheFlag := by
  unfold Obligations.RsvbClearsTheFlag
  exact fun s => exec_of_effect rfl rfl rfl

/-- With the flag clear a resolution ends in silence (41_key_matrix_scanner.md R81). -/
theorem endResolution_of_clear {s : State} (h : s.kp = false) :
    endResolution s = { s with css := 0#32, note := none } := by
  simp [endResolution, kpNone, h]

/-- With the flag set the end of a resolution changes nothing (41_key_matrix_scanner.md R81). -/
theorem endResolution_of_set {s : State} (h : s.kp = true) : endResolution s = s := by
  have hkp : kpNone s.kp = false := congrArg not h
  simp [endResolution, hkp]

/-- Settles O26: the end of a resolution by the flag. -/
theorem rsveSilencesWhenNonePressed : Obligations.RsveSilencesWhenNonePressed := by
  unfold Obligations.RsveSilencesWhenNonePressed
  exact ⟨decode_encode (i := .rsve) rfl, fun s =>
    ⟨fun hclear => exec_of_effect rfl rfl (endResolution_of_clear hclear),
      fun hset => exec_of_effect rfl rfl (endResolution_of_set hset)⟩⟩

/-! ### One pass of a resolution -/

/-- The passes' words with an operand 12 to 15 are reserved (30_encoding.md R50). -/
theorem decode_rsvi_of_reserved : ∀ i : NoteField, 12 ≤ i.toNat →
    decode (0b0010#4 ++ i) = .error .reservedOperand := by decide

/-- A pass with a legal operand runs. -/
theorem exec_rsvi {i : NoteField} {m : Fin 12} (h : i.toNat = m.val) (s : State) :
    exec (.rsvi i) s = .next (advanceFg (resolvePass m s)) := by
  simp only [exec, execRsvi, noteOf_eq_some.mpr h, fgStep]

theorem resolvePass_of_pressed {m : Fin 12} {s : State} (h : s.pressed m = true) :
    resolvePass m s = { s with css := Config.stepSize m, note := some m, kp := true } := by
  simp [resolvePass, kpPass, h]

theorem resolvePass_of_released {m : Fin 12} {s : State} (h : s.pressed m = false) : resolvePass m s = s :=
  passes_of_released (l := [m]) (by simpa using h)

/-- A cell is pressed where its bit is clear (10_state.md R16). -/
theorem pressed_eq {s : State} {m : Fin 12} {b : Bool} (h : s.km.getLsbD m.val = b) : s.pressed m = !b :=
  congrArg not h

/-- Settles O25: a reserved operand is refused by the decoder and by the step; a legal one makes a pass over its cell,
pressed or released. -/
theorem rsviTakesAPressedCell : Obligations.RsviTakesAPressedCell := by
  unfold Obligations.RsviTakesAPressedCell
  refine ⟨fun i s hi => ⟨decode_rsvi_of_reserved i hi, ((reservedOperandTermsRefused s).2 i hi).1⟩,
    fun i m s hi => ⟨?_, fun hlow => ?_, fun hhigh => ?_⟩⟩
  · exact decode_encode (i := .rsvi i) (decide_eq_true (by rw [hi]; exact m.isLt))
  · rw [exec_rsvi hi, resolvePass_of_pressed (pressed_eq hlow)]
  · rw [exec_rsvi hi, resolvePass_of_released (pressed_eq hhigh)]

/-- Settles O50: the tick adds the step size that the pass has just written. -/
theorem intermediateStepSizeIsHeard : Obligations.IntermediateStepSizeIsHeard := by
  unfold Obligations.IntermediateStepSizeIsHeard
  intro i m s hi hlow ha
  refine ⟨_, _, exec_rsvi hi s, exec_tick_eq_next.mpr ⟨ha, rfl⟩, ?_⟩
  rw [resolvePass_of_pressed (pressed_eq hlow)]
  rfl

/-! ### Sampling a row -/

/-- A sampling with a legal operand runs. -/
theorem exec_smp {r : BitVec 3} {q : Fin 3} (h : r.toNat = q.val) (s : State) :
    exec (.smp r) s = .next (advanceFg (sampleRow q s)) := by
  simp only [exec, execSmp, rowOf_eq_some.mpr h, fgStep]

/-- Settles O23: a sampling writes the four cells of its row, from the columns of the settled row where there is one. -/
theorem smpSamplesTheSelectedRow : Obligations.SmpSamplesTheSelectedRow := by
  unfold Obligations.SmpSamplesTheSelectedRow
  intro r q s hr
  refine ⟨_, exec_smp hr s, fun p c hen haddr hsettle => ?_, fun j hj => writeRow_other _ _ _ _ hj, rfl,
    ⟨rfl, rfl, rfl, rfl, rfl⟩, ⟨rfl, rfl⟩, ⟨rfl, rfl⟩, ⟨rfl, rfl, rfl⟩, rfl, rfl, rfl, rfl⟩
  have hsettled : settledRow s = some p := settledRow_eq_some.mpr ⟨hsettle, hen, haddr⟩
  rw [advanceFg_km, sampleRow_of_settled q hsettled]
  exact writeRow_cell _ _ _ c

/-! ### Composites run to their end -/

/-- A well-formed composite with no turn between its steps: the effects of its atomic steps in order, FG gone on by
their number, and the oscillator as it was (30_encoding.md R51). -/
theorem exec_composite_run {i : Instr} (hk : i.kind = .composite) (hw : i.wf = true) (s : State) :
    ∃ t u, exec i s = .next t ∧ runUnder (fgTurns ((atomics i).length - 1)) t = .next u ∧
      AlikeForFg ((atomics i).foldl (fun u i => effect i u) s) u ∧ FgWentOn (atomics i).length s u ∧
      SameOscillator s u := by
  obtain ⟨first, more, hi, hexec⟩ := exec_composite hk hw
  have hplain : PlainSteps (first :: more) := hi ▸ plainSteps_atomics hw
  rw [hi]
  exact composite_run hplain (hexec s)

/-- The operand that names row `q` (30_encoding.md R50). -/
def rowField (q : Fin 3) : BitVec 3 := BitVec.ofNat 3 q.val

theorem rowLegal_rowField (q : Fin 3) : rowLegal (rowField q) = true := by
  revert q
  decide

theorem eq_rowField {r : BitVec 3} {q : Fin 3} (h : r.toNat = q.val) : r = rowField q :=
  BitVec.eq_of_toNat_eq (by rw [h, rowField, BitVec.toNat_ofNat]; omega)

/-- Settles O27: the four steps select the row, let it settle and sample it. -/
theorem scanrowSamplesItsRow : Obligations.ScanrowSamplesItsRow := by
  unfold Obligations.ScanrowSamplesItsRow
  intro r q s hr
  obtain rfl := eq_rowField hr
  obtain ⟨t, u, ht, hu, halike, hwent, hosc⟩ :=
    exec_composite_run (i := .scanrow (rowField q)) rfl (rowLegal_rowField q) s
  replace halike : AlikeForFg (scannedRow q s) u := foldl_effect_scanrow q s ▸ halike
  refine ⟨t, u, ht, hu, halike.addr, halike.en, congrArg Fin.val halike.settle, halike.data, halike.outl,
    fun c => ?_, fun j hj => ?_, halike.kp, ⟨halike.css, halike.note⟩, hosc,
    ⟨halike.armed, halike.led, halike.key⟩, hwent⟩
  · rw [halike.km]
    exact writeRow_cell _ _ _ c
  · rw [halike.km]
    exact writeRow_other _ _ _ _ hj

theorem Resolved.of_alike {pressed : Fin 12 → Bool} {t u : State} (h : Resolved pressed t) (ha : AlikeForFg t u) :
    Resolved pressed u := by
  rw [alike_iff.mp ha]
  exact h

/-- Settles O28: the fourteen steps are a resolution, which writes the step size, the note and the flag only. -/
theorem resolveTakesTheHighestPressedCell : Obligations.ResolveTakesTheHighestPressedCell := by
  unfold Obligations.ResolveTakesTheHighestPressedCell
  intro s
  obtain ⟨t, u, ht, hu, halike, hwent, hosc⟩ := exec_composite_run (i := .resolve) rfl rfl s
  replace halike : AlikeForFg (resolution s) u := foldl_effect_resolve s ▸ halike
  have hframe : u.km = s.km ∧ SameBus s u ∧ SameOutside s u := by
    rw [alike_iff.mp halike, resolution_else]
    exact ⟨rfl, ⟨rfl, rfl, rfl, rfl, rfl⟩, rfl, rfl, rfl⟩
  obtain ⟨hkm, hbus, houtside⟩ := hframe
  exact ⟨t, u, ht, hu, (resolved_resolution s).of_alike halike, hkm, hbus, hosc, houtside, hwent⟩

/-- Settles O29: the twenty-seven steps show the keys in the matrix and resolve it. -/
theorem scanSoundsTheHighestHeldKey : Obligations.ScanSoundsTheHighestHeldKey := by
  unfold Obligations.ScanSoundsTheHighestHeldKey
  intro s
  obtain ⟨t, u, ht, hu, halike, hwent, hosc⟩ := exec_composite_run (i := .scan) rfl rfl s
  replace halike : AlikeForFg (resolution (scannedMatrix s)) u := foldl_effect_scan s ▸ halike
  obtain ⟨addr, en, settle, data, outl, cells, sound, outside⟩ := (scanned_resolution s).of_alike halike
  exact ⟨t, u, ht, hu, addr, en, settle, data, outl, cells, sound, hosc, outside, hwent⟩

/-! ### The order of the rows -/

/-- The rows `qs` scanned, one after the other. -/
def scannedRows (qs : List (Fin 3)) (s : State) : State := qs.foldl (fun u q => scannedRow q u) s

theorem foldl_effect_scanrows (qs : List (Fin 3)) (s : State) :
    (((qs.map rowField).map Instr.scanrow).flatMap atomics).foldl (fun u i => effect i u) s = scannedRows qs s := by
  induction qs generalizing s with
  | nil => rfl
  | cons q qs ih =>
    simp only [List.map_cons, List.flatMap_cons, List.foldl_append, ih]
    exact congrArg (scannedRows qs) (foldl_effect_scanrow q s)

/-- Scanned rows show their keys, in whatever order they are scanned; the cells of the others are as they were. -/
theorem scannedRows_cell (qs : List (Fin 3)) (r : Fin 3) (c : Fin 4) (s : State) :
    (scannedRows qs s).km.getLsbD (cellIndex r c).val =
      if r ∈ qs then !s.held (cellIndex r c) else s.km.getLsbD (cellIndex r c).val := by
  induction qs generalizing s with
  | nil => rfl
  | cons q qs ih =>
    have hheld : (scannedRow q s).held = s.held := rfl
    have hcons : scannedRows (q :: qs) s = scannedRows qs (scannedRow q s) := rfl
    rw [hcons, ih, hheld, scannedRow_cell]
    by_cases hqs : r ∈ qs
    · rw [if_pos hqs, if_pos (List.mem_cons_of_mem q hqs)]
    · rw [if_neg hqs]
      simp [hqs]

/-- A list of operands that is some order of the three rows is the operands of some order of the three rows. -/
theorem exists_rows_of_perm {rows : List (BitVec 3)} (h : rows.Perm [0#3, 1#3, 2#3]) :
    ∃ qs : List (Fin 3), qs.map rowField = rows ∧ qs.Perm (List.finRange 3) := by
  have hrange : rows ∈ Set.range (List.map rowField) := by
    rw [Set.range_list_map]
    exact fun r hr => (by decide : ∀ r ∈ [0#3, 1#3, 2#3], ∃ q, rowField q = r) r (h.mem_iff.mp hr)
  obtain ⟨qs, rfl⟩ := hrange
  have hinj : Function.Injective rowField := by decide
  exact ⟨qs, rfl, (List.map_perm_map_iff hinj).mp h⟩

/-- A matrix whose cells 0 to 11 show the keys is resolved to the highest held key. -/
theorem resolved_of_shown {t : State} {held : Fin 12 → Bool} (h : ∀ i : Fin 12, t.km.getLsbD i.val = !held i) :
    Resolved held (resolution t) := by
  have hpressed : t.pressed = held := funext fun i => (pressed_eq (h i)).trans (Bool.not_not _)
  exact hpressed ▸ resolved_resolution t

/-- Settles O30: whatever the order, each of the three rows is among those scanned, so every cell shows its key. -/
theorem rowOrderMakesNoDifference : Obligations.RowOrderMakesNoDifference := by
  unfold Obligations.RowOrderMakesNoDifference
  intro rows hrows s ws hr
  obtain ⟨qs, rfl, hqs⟩ := exists_rows_of_perm hrows
  have hcells : ∀ i : Fin 12, (scannedRows qs s).km.getLsbD i.val = !s.held i := by
    intro i
    obtain ⟨r, c, rfl⟩ := exists_cellIndex i
    rw [scannedRows_cell, if_pos (hqs.mem_iff.mpr (List.mem_finRange r))]
  have hcommands : ∀ i ∈ (qs.map rowField).map Instr.scanrow ++ [.resolve], i.wf = true ∧ i.agent = .fg := by
    intro i hi
    obtain hi | hi := List.mem_append.mp hi
    · rw [List.map_map] at hi
      obtain ⟨q, -, rfl⟩ := List.mem_map.mp hi
      exact ⟨rowLegal_rowField q, rfl⟩
    · obtain rfl := List.mem_singleton.mp hi
      exact ⟨rfl, rfl⟩
  have hlength : (((qs.map rowField).map Instr.scanrow ++ [Instr.resolve]).flatMap atomics).length = 26 := by
    have hthree : qs.length = 3 := hqs.length_eq
    simp [List.length_flatMap, Function.comp_def, atomics, scanrowSteps, selrowSteps, resolveSteps, passSteps, hthree]
  obtain ⟨u, hu, halike⟩ := runUnder_commands hcommands (onlyTicks_fgTurns 26) (by rw [count_fgTurns, hlength]) hr
  rw [count_fgTurns, ← hlength, List.take_length, List.flatMap_append, List.foldl_append, foldl_effect_scanrows]
    at halike
  replace halike : AlikeForFg (resolution (scannedRows qs s)) u := foldl_effect_resolve (scannedRows qs s) ▸ halike
  refine ⟨u, hu, fun i => ?_, (resolved_of_shown hcells).of_alike halike⟩
  rw [halike.km, resolution_else]
  exact hcells i

/-! ### Ticks after a scan -/

/-- A run of ticks of the armed clock (44_sample_rate_timer.md R121). -/
theorem runUnder_ticks {s : State} (h : s.armed = true) (n : Nat) :
    runUnder (List.replicate n .sc) s = .next ((takeTick^[n] s).under []) := by
  induction n generalizing s with
  | zero => rfl
  | succ n ih => rw [List.replicate_succ, runUnder_sc, if_pos h, ih (s := takeTick s) h, Function.iterate_succ_apply]

/-- A tick that reads a step size of 0 leaves the phase and repeats its top byte (43_phase_accumulator_oscillator.md
R110). -/
theorem takeTick_of_silent {s : State} (h : s.css = 0#32) : takeTick s = { s with audio := topByte s.acc } := by
  have hphase : advancePhase s.acc s.css = s.acc := by rw [advancePhase, h, BitVec.add_zero]
  rw [takeTick, hphase, sampleOf, emit_toS8]

theorem iterate_takeTick_of_silent {s : State} (h : s.css = 0#32) (n : Nat) :
    takeTick^[n + 1] s = { s with audio := topByte s.acc } := by
  induction n with
  | zero => exact takeTick_of_silent h
  | succ n ih => rw [Function.iterate_succ_apply', ih]; exact takeTick_of_silent h

/-- FG's turn on a command, whatever turns follow. -/
theorem runUnder_command {i : Instr} {s t : State} {ws : List CommandWord} {σ : List Turn} (hw : i.wf = true)
    (hr : s.rest = encode i :: ws) (h : exec i (s.withRest ws) = .next t) : runUnder (.fg :: σ) s = runUnder σ t := by
  have hstep : step (s.under (.fg :: σ)) = exec i ((s.withRest ws).under σ) := step_fg rfl hr (decode_encode hw)
  exact runUnder_cons (t := t.under σ) (hstep.trans (exec_sched σ h))

/-- Settles O38: the scan leaves the step size 0 and the oscillator alone, and ticks of step size 0 leave the phase. -/
theorem releaseHoldsThePhase : Obligations.ReleaseHoldsThePhase := by
  unfold Obligations.ReleaseHoldsThePhase
  intro s ws n harmed hreleased hr
  obtain ⟨t, u, ht, hu, -, -, -, -, -, -, hsound, ⟨hacc, haudio⟩, ⟨huarmed, -⟩, -⟩ :=
    scanSoundsTheHighestHeldKey (s.withRest ws)
  obtain ⟨hcss, hnote, -⟩ := hsound.1 hreleased
  have hrun : runUnder (fgTurns 27 ++ List.replicate n .sc) s = .next ((takeTick^[n] u).under []) :=
    calc runUnder (fgTurns 27 ++ List.replicate n .sc) s
      _ = runUnder (fgTurns 26 ++ List.replicate n .sc) t := runUnder_command (i := .scan) rfl hr ht
      _ = runUnder (List.replicate n .sc) u := runUnder_append hu
      _ = .next ((takeTick^[n] u).under []) := runUnder_ticks (huarmed.trans harmed) n
  cases n with
  | zero => exact ⟨_, hrun, hcss, hnote, hacc, fun _ => haudio, fun h => absurd h (lt_irrefl 0)⟩
  | succ n =>
    rw [iterate_takeTick_of_silent hcss] at hrun
    exact ⟨_, hrun, hcss, hnote, hacc, fun h => absurd h n.succ_ne_zero, fun _ => congrArg topByte hacc⟩

end Sys2Proof.Machine

end

section
/-! PROOFS of the family 43_phase_accumulator_oscillator.md: the arithmetic of one sample, and what a run of ticks adds
up to. The rules each proof cites stand before it. -/

namespace Sys2Proof.Machine

/-! ### The sample and the output -/

/-- The top byte counts the accumulator's whole steps of 2^24 (43_phase_accumulator_oscillator.md R106). -/
theorem toNat_topByte (acc : StepSize) : (topByte acc).toNat = acc.toNat / 2 ^ 24 := by
  rw [topByte, BitVec.extractLsb'_toNat, Nat.shiftRight_eq_div_pow]
  omega

/-- Taking 128 from a byte inverts its top bit (43_phase_accumulator_oscillator.md R106). -/
theorem toS8_eq_xor (b : BitVec 8) : toS8 b = b ^^^ 128#8 := by
  revert b
  decide

/-- With `OUT_BITS` = 8 nothing is shifted out of the sum and it fits the output (43_phase_accumulator_oscillator.md
R107). -/
theorem toNat_emit (v : SampleWord) : ((emit v).toNat : Int) = v.toInt + 128 := by
  have hshift : 8 - Config.outBits = 0 := rfl
  have hlow : -128 ≤ v.toInt := BitVec.le_toInt v
  have hhigh : v.toInt < 128 := BitVec.toInt_lt
  rw [emit, hshift, Nat.shiftRight_zero, BitVec.toNat_ofNat]
  omega

/-- Settles O35: the sample is the top byte in offset form, and the output takes the offset back. -/
theorem sampleAndEmitArithmetic : Obligations.SampleAndEmitArithmetic := by
  unfold Obligations.SampleAndEmitArithmetic
  refine ⟨fun acc => ?_, toNat_emit⟩
  have hsample : (sampleOf acc).toInt = (acc.toNat / 2 ^ 24 : Int) - 128 := by
    rw [toInt_sampleOf, toNat_topByte]
    rfl
  exact ⟨hsample, BitVec.le_toInt _, Int.le_of_lt_add_one BitVec.toInt_lt, toS8_eq_xor _, emit_toS8 _⟩

/-! ### Ticks that read one step size -/

/-- After a tick the output is the accumulator's top byte (43_phase_accumulator_oscillator.md R107). -/
theorem takeTick_audio (s : State) : (takeTick s).audio = topByte (takeTick s).acc := emit_toS8 _

/-- Ticks write the accumulator and the output only (44_sample_rate_timer.md R121). -/
theorem iterate_takeTick_else (n : Nat) (s : State) :
    takeTick^[n] s = { s with acc := (takeTick^[n] s).acc, audio := (takeTick^[n] s).audio } := by
  induction n with
  | zero => rfl
  | succ n ih =>
    rw [Function.iterate_succ_apply', ih]
    rfl

theorem iterate_takeTick_css (n : Nat) (s : State) : (takeTick^[n] s).css = s.css := by
  rw [iterate_takeTick_else]

/-- Ticks add up modulo 2^32 (43_phase_accumulator_oscillator.md R109). -/
theorem iterate_takeTick_acc (n : Nat) (s : State) :
    (takeTick^[n] s).acc.toNat = (s.acc.toNat + n * s.css.toNat) % 2 ^ 32 := by
  induction n with
  | zero =>
    rw [Nat.zero_mul, Nat.add_zero, Nat.mod_eq_of_lt s.acc.isLt]
    rfl
  | succ n ih =>
    rw [Function.iterate_succ_apply', takeTick_acc, iterate_takeTick_css, BitVec.toNat_add, ih, Nat.mod_add_mod,
      Nat.succ_mul, Nat.add_assoc]

theorem iterate_takeTick_audio {n : Nat} (h : 0 < n) (s : State) :
    (takeTick^[n] s).audio = topByte (takeTick^[n] s).acc := by
  obtain ⟨m, rfl⟩ := Nat.exists_eq_add_one.mpr h
  rw [Function.iterate_succ_apply', takeTick_audio]

/-! ### Ticks that read a list of step sizes -/

/-- However the ticks are run, if each reads the next step size of the list, they add the list's sum
(43_phase_accumulator_oscillator.md R109). -/
theorem foldlM_takeTick {tickWith : State → StepSize → Option State}
    (htick : ∀ t c, t.armed = true → tickWith t c = some (takeTick { t with css := c }))
    (l : List StepSize) {s : State} (h : s.armed = true) :
    ∃ u, l.foldlM tickWith s = some u ∧ u.acc = s.acc + l.sum := by
  induction l generalizing s with
  | nil => exact ⟨s, rfl, (BitVec.add_zero s.acc).symm⟩
  | cons c l ih =>
    obtain ⟨u, hu, hacc⟩ := ih (s := takeTick { s with css := c }) h
    refine ⟨u, ?_, ?_⟩
    · rw [List.foldlM_cons, htick s c h]
      exact hu
    · rw [hacc, takeTick_acc, List.sum_cons, BitVec.add_assoc]

/-- Settles O36: a run of ticks is the tick iterated, and each tick adds the step size it reads. -/
theorem ticksAddUp : Obligations.TicksAddUp := by
  unfold Obligations.TicksAddUp
  constructor
  · intro n s harmed
    exact ⟨_, runUnder_ticks harmed n, iterate_takeTick_acc n s, fun hn => iterate_takeTick_audio hn s,
      congrArg (State.under · []) (iterate_takeTick_else n s)⟩
  · intro l s harmed
    refine foldlM_takeTick (fun t c ht => ?_) l harmed
    have htick : exec .tick { t with css := c } = .next (takeTick { t with css := c }) :=
      exec_tick_eq_next.mpr ⟨ht, rfl⟩
    rw [htick]

/-! ### The period -/

/-- Settles O37: ticks add up, and whole turns of 2^32 are all that the accumulator forgets. -/
theorem sawtoothPeriod : Obligations.SawtoothPeriod := by
  unfold Obligations.SawtoothPeriod
  intro n s harmed
  obtain ⟨u, hrun, hacc, -⟩ := ticksAddUp.1 n s harmed
  refine ⟨u, hrun, ?_⟩
  have hlt : s.acc.toNat < 2 ^ 32 := s.acc.isLt
  calc u.acc = s.acc
    _ ↔ (s.acc.toNat + n * s.css.toNat) % 2 ^ 32 = s.acc.toNat := by rw [← hacc, BitVec.toNat_inj]
    _ ↔ s.acc.toNat + n * s.css.toNat ≡ s.acc.toNat [MOD 2 ^ 32] := by rw [Nat.ModEq, Nat.mod_eq_of_lt hlt]
    _ ↔ 2 ^ 32 ∣ n * s.css.toNat := Nat.add_modEq_left_iff

end Sys2Proof.Machine

end

section
/-! PROOFS of the family 44_sample_rate_timer.md: what a tick does and what it leaves to the foreground, and that the boot
program arms the clock. The rules each proof cites stand before it. -/

namespace Sys2Proof.Machine

/-! ### FG's turn, and steps of a program without end -/

/-- FG's turn, listed or not, runs the command that the next word spells. -/
theorem step_fgTurn {s : State} {w : CommandWord} {ws : List CommandWord} {i : Instr}
    (hσ : s.sched = [] ∨ ∃ σ, s.sched = .fg :: σ) (hr : (refill s).rest = w :: ws) (hd : decode w = .ok i) :
    step s = exec i (((refill s).withRest ws).under s.sched.tail) := by
  obtain hs | ⟨σ, hs⟩ := hσ
  · have hunder : ((refill s).withRest ws).under s.sched.tail = (refill s).withRest ws := by
      rw [hs, List.tail_nil, ← hs]
      rfl
    rw [hunder]
    exact step_unscheduled_refill hs hr hd
  · rw [hs]
    exact step_fg_refill hs hr hd

/-- A program without end that holds commands of FG only always has a next word, and it is one of them. -/
theorem exists_word_of_ownCommands {s : State} (h : OwnCommands s) :
    ∃ w ws i, (refill s).rest = w :: ws ∧ decode w = .ok i ∧ i.agent = .fg := by
  obtain ⟨hne, hown⟩ := ownCommands_refill h
  have hrest : (refill s).rest ≠ [] := by
    cases hr : s.rest with
    | nil => rw [refill_of_nil hr]; exact hne
    | cons w ws => rw [refill_of_cons hr, hr]; exact List.cons_ne_nil w ws
  obtain ⟨w, ws, hr⟩ := List.exists_cons_of_ne_nil hrest
  obtain ⟨i, hd, hagent⟩ := hown w (by simp [hr])
  exact ⟨w, ws, i, hr, hd, hagent⟩

/-- Such a program goes on, whoever has the turn (70_reset_and_hazards.md R178). -/
theorem exists_step_of_ownCommands {s : State} (h : OwnCommands s) : ∃ t, step s = .next t := by
  have hfg : (s.sched = [] ∨ ∃ σ, s.sched = .fg :: σ) → ∃ t, step s = .next t := by
    intro hσ
    obtain ⟨w, ws, i, hr, hd, hagent⟩ := exists_word_of_ownCommands h
    obtain ⟨first, more, -, hexec⟩ := exec_foreground (wf_of_decode hd) hagent
    exact ⟨_, (step_fgTurn hσ hr hd).trans (hexec _)⟩
  cases hs : s.sched with
  | nil => exact hfg (.inl hs)
  | cons u σ =>
    cases u with
    | fg => exact hfg (.inr ⟨σ, hs⟩)
    | sc => exact ⟨_, step_sc hs⟩
    | keydn k => exact ⟨_, step_keydn hs⟩
    | keyup k => exact ⟨_, step_keyup hs⟩
    | reset => exact ⟨_, step_reset hs⟩

/-! ### What a tick leaves to the foreground -/

/-- `s` with the accumulator and the output at other values: all that a tick can make of it. -/
def State.withOscillator (s : State) (a : StepSize) (b : OutWord) : State := { s with acc := a, audio := b }

theorem elapse_withOscillator (n : Nat) (s : State) (a : StepSize) (b : OutWord) :
    elapse n (s.withOscillator a b) = (elapse n s).withOscillator a b := rfl

/-- No atomic step reads or writes the accumulator or the output. -/
theorem effect_withOscillator (i : Instr) (s : State) (a : StepSize) (b : OutWord) :
    effect i (s.withOscillator a b) = (effect i s).withOscillator a b := by
  cases i with
  | smp r => cases hr : rowOf r <;> simp only [effect, hr] <;> rfl
  | rsvi n => cases hn : noteOf n <;> simp only [effect, hn] <;> rfl
  | dly2 | dly3 | wait100 => exact elapse_withOscillator _ s a b
  | _ => rfl

/-- Whatever the accumulator and the output are, a command makes the same of all the rest. -/
theorem exec_withOscillator {i : Instr} {s t : State} (a : StepSize) (b : OutWord) (h : exec i s = .next t) :
    ∃ a' b', exec i (s.withOscillator a b) = .next (t.withOscillator a' b') := by
  obtain ⟨first, more, -, hexec, rfl⟩ | ⟨rfl, harmed, rfl⟩ | ⟨n, k, v, hi, hn, rfl⟩ | ⟨rfl, rfl⟩ := exec_cases h
  · refine ⟨a, b, (hexec _).trans ?_⟩
    exact congrArg (fun u => Host.Outcome.next (advanceFg u)) (effect_withOscillator first (pushSteps more s) a b)
  · exact ⟨_, _, exec_tick_eq_next.mpr ⟨harmed, rfl⟩⟩
  · exact ⟨a, b, exec_keyEvent hi hn _⟩
  · exact ⟨_, _, rfl⟩

/-- Whatever the accumulator and the output are, a turn makes the same of all the rest. -/
theorem step_withOscillator {s t : State} (a : StepSize) (b : OutWord) (h : step s = .next t) :
    ∃ a' b', step (s.withOscillator a b) = .next (t.withOscillator a' b') := by
  obtain ⟨hσ, w, ws, i, hr, hd, he⟩ | ⟨σ, hs, ⟨harmed, rfl⟩ | ⟨harmed, rfl⟩⟩ | ⟨σ, k, v, ⟨hs, rfl⟩ | ⟨hs, rfl⟩, rfl⟩ |
    ⟨σ, hs, rfl⟩ := step_cases h
  · obtain ⟨a', b', he'⟩ := exec_withOscillator a b he
    exact ⟨a', b', (step_fgTurn (s := s.withOscillator a b) hσ hr hd).trans he'⟩
  · have hstep := step_sc (s := s.withOscillator a b) hs
    exact ⟨a, b, hstep.trans (congrArg Host.Outcome.next (if_neg (by simp [State.withOscillator, harmed])))⟩
  · have hstep := step_sc (s := s.withOscillator a b) hs
    exact ⟨_, _, hstep.trans (congrArg Host.Outcome.next (if_pos harmed))⟩
  · exact ⟨a, b, step_keydn (s := s.withOscillator a b) hs⟩
  · exact ⟨a, b, step_keyup (s := s.withOscillator a b) hs⟩
  · exact ⟨_, _, step_reset (s := s.withOscillator a b) hs⟩

/-- A turn of the clock writes the accumulator and the output, or nothing (44_sample_rate_timer.md R123). -/
theorem step_sc_else {s t : State} {σ : List Turn} (h : step (s.under (.sc :: σ)) = .next t) :
    t = (s.under σ).withOscillator t.acc t.audio := by
  have ht := h.symm.trans (step_sc rfl)
  injection ht with ht
  rw [ht]
  split <;> rfl

/-- Leaving the clock's turns out of a schedule changes the accumulator and the output only. -/
theorem runUnder_without_clock {σ : List Turn} {s u : State} (a : StepSize) (b : OutWord)
    (h : runUnder σ s = .next u) :
    ∃ a' b', runUnder (σ.filter (fun x => x != .sc)) (s.withOscillator a b) = .next (u.withOscillator a' b') := by
  induction σ generalizing s a b with
  | nil =>
    injection h with h
    subst h
    exact ⟨a, b, rfl⟩
  | cons x σ ih =>
    obtain ⟨t, ht, hrun⟩ := runUnder_cons_next h
    by_cases hx : x = .sc
    · subst hx
      rw [List.filter_cons_of_neg (by simp)]
      have hsame := congrArg (State.withOscillator · a b) (step_sc_else ht)
      obtain ⟨a', b', hrun'⟩ := ih a b hrun
      rw [hsame] at hrun'
      exact ⟨a', b', hrun'⟩
    · rw [List.filter_cons_of_pos (by simpa using hx)]
      obtain ⟨a₁, b₁, hstep⟩ := step_withOscillator a b (step_tail (σ.filter (fun x => x != .sc)) ht).2
      obtain ⟨a', b', hrun'⟩ := ih a₁ b₁ hrun
      exact ⟨a', b', (runUnder_cons (s := s.withOscillator a b) hstep).trans hrun'⟩

/-- Settles O49: nothing but a tick reads the accumulator, and nothing reads the output, so a step and a run go on alike
whatever the two are. -/
theorem ticksAreInvisibleToTheForeground : Obligations.TicksAreInvisibleToTheForeground := by
  unfold Obligations.TicksAreInvisibleToTheForeground
  refine ⟨fun s t a b u σ τ h => ?_, fun s t σ h => step_sc_else h, fun σ s u h => ?_⟩
  · exact step_withOscillator a b (step_tail τ h).2
  · obtain ⟨a, b, hrun⟩ := runUnder_without_clock s.acc s.audio h
    exact ⟨_, hrun, rfl⟩

/-! ### The boot program goes on to `ARM` -/

/-- Before the loop the stream is not at its end, so FG's turn finds FG where it is; in the loop it may first go back to
the loop's first step. -/
theorem refill_fgpc_of_boot {s : State} (h : AtBootStep s) :
    (refill s).fgpc = s.fgpc ∨ 19 ≤ s.fgpc ∧ (refill s).fgpc = 19 := by
  cases hr : s.rest with
  | cons w ws => exact .inl (by rw [refill_of_cons hr])
  | nil =>
    obtain ⟨body, -, -, hrest⟩ := h.position
    have hend := List.drop_eq_nil_iff.mp (hrest.symm.trans (by rw [hr]; rfl))
    rw [h.prog, List.length_append, length_streamSteps_bootStraight] at hend
    refine .inr ⟨by omega, ?_⟩
    rw [refill_of_nil hr, h.prog]
    exact length_streamSteps_bootStraight

/-- FG's turn goes on by one step before the loop, and stays in the loop (45_foreground_sequencer.md R136). -/
theorem bootStep_fgTurn_fgpc {s t : State} (hs : AtBootStep s) (h : step s = .next t)
    (hσ : s.sched = [] ∨ ∃ σ, s.sched = .fg :: σ) :
    (s.fgpc < 19 → t.fgpc = s.fgpc + 1) ∧ (19 ≤ s.fgpc → 19 ≤ t.fgpc) := by
  obtain ⟨w, ws, i, hr, hd, -⟩ := exists_word_of_ownCommands hs.own
  obtain ⟨-, -, -, -, -, -, -, hfgpc⟩ := bootTurn hs hr hd ((step_fgTurn hσ hr hd).symm.trans h)
  have hrefill := refill_fgpc_of_boot hs
  omega

/-- The turns of the clock and of the keys leave FG where it is (44_sample_rate_timer.md R123). -/
theorem step_otherTurn_fgpc {s t : State} {u : Turn} {σ : List Turn} (hs : s.sched = u :: σ) (hfg : u ≠ .fg)
    (hreset : u ≠ .reset) (h : step s = .next t) : t.fgpc = s.fgpc := by
  obtain ⟨hnil | ⟨τ, hτ⟩, -⟩ | ⟨τ, -, ⟨-, rfl⟩ | ⟨-, rfl⟩⟩ | ⟨τ, k, v, -, rfl⟩ | ⟨τ, hτ, -⟩ := step_cases h
  · simp [hs] at hnil
  · simp [hs, hfg] at hτ
  · rfl
  · rfl
  · rfl
  · simp [hs, hreset] at hτ

theorem armed_iff_of_boot {s : State} (h : AtBootStep s) : s.armed = true ↔ 19 ≤ s.fgpc := by
  rw [h.armed, decide_eq_true_iff]

/-- FG's turns take the boot program on, up to the loop, whatever turns but resets fall between them. -/
theorem runUnder_boot_progress {σ : List Turn} {s : State} (hs : AtBootStep s) (hσ : .reset ∉ σ) :
    ∃ t, runUnder σ s = .next t ∧ AtBootStep t ∧ min 19 (s.fgpc + σ.count .fg) ≤ t.fgpc := by
  induction σ generalizing s with
  | nil => exact ⟨_, rfl, atBootStep_under [] hs, Nat.min_le_right ..⟩
  | cons u σ ih =>
    have hs' : AtBootStep (s.under (u :: σ)) := atBootStep_under _ hs
    obtain ⟨v, hv⟩ := exists_step_of_ownCommands hs'.own
    obtain ⟨t, hrun, ht, hle⟩ := ih (atBootStep_step hs' hv) fun h => hσ (List.mem_cons_of_mem u h)
    refine ⟨t, (runUnder_cons hv).trans hrun, ht, ?_⟩
    by_cases hu : u = .fg
    · subst hu
      have hfgpc := bootStep_fgTurn_fgpc hs' hv (.inr ⟨σ, rfl⟩)
      rw [under_fgpc] at hfgpc
      rw [List.count_cons_self]
      omega
    · have hreset : u ≠ .reset := fun h => hσ (h ▸ List.mem_cons_self ..)
      have hfgpc : v.fgpc = s.fgpc := step_otherTurn_fgpc (s := s.under (u :: σ)) rfl hu hreset hv
      rw [List.count_cons_of_ne hu]
      omega

/-- A fair schedule gives FG any number of turns (44_sample_rate_timer.md R122). -/
theorem exists_fgTurns_of_fair {σ : Nat → Turn} (h : FairSchedule σ) (k : Nat) :
    ∃ n, k ≤ (turnsUpTo σ n).count .fg := by
  induction k with
  | zero => exact ⟨0, Nat.zero_le _⟩
  | succ k ih =>
    obtain ⟨n, hn⟩ := ih
    obtain ⟨m, hnm, hm⟩ := h.1 n
    have hmono : (turnsUpTo σ n).count .fg ≤ (turnsUpTo σ m).count .fg :=
      ((List.range_sublist.mpr hnm).map σ).count_le _
    have hsucc : turnsUpTo σ (m + 1) = turnsUpTo σ m ++ [.fg] := by
      rw [turnsUpTo, List.range_succ, List.map_append, List.map_singleton, hm]
      rfl
    refine ⟨m + 1, ?_⟩
    rw [hsucc, List.count_append, List.count_singleton_self]
    omega

/-- Settles O60: FG's turns take the boot program to its loop in nineteen steps, and a fair schedule has nineteen. -/
theorem bootArmsUnderEveryFairSchedule : Obligations.BootArmsUnderEveryFairSchedule := by
  unfold Obligations.BootArmsUnderEveryFairSchedule
  refine ⟨fun s t hs h => ⟨bootStep_fgTurn_fgpc hs h, fun u σ hσ hfg hreset => step_otherTurn_fgpc hσ hfg hreset h,
    armed_iff_of_boot (atBootStep_step hs h)⟩, fun σ hfair hreset => ?_⟩
  obtain ⟨n, hn⟩ := exists_fgTurns_of_fair hfair 19
  have hσ : .reset ∉ turnsUpTo σ n := by
    intro hmem
    obtain ⟨m, -, hm⟩ := List.mem_map.mp hmem
    exact hreset m hm
  obtain ⟨t, hrun, ht, hle⟩ := runUnder_boot_progress atBootStep_reset hσ
  exact ⟨n, t, hrun, (armed_iff_of_boot ht).mpr (by omega)⟩

/-! ### Arming, and the turns of the other agents -/

/-- Settles O39: arming is one effect, which a tick asks for and only reset undoes. -/
theorem armStartsTheClock : Obligations.ArmStartsTheClock := by
  unfold Obligations.ArmStartsTheClock
  refine ⟨decode_encode (i := .arm) rfl, fun s => ?_, fun i s t hi h harmed => exec_keeps_armed hi h harmed⟩
  exact ⟨_, _, exec_atomic (i := .arm) rfl rfl s, rfl, exec_tick_eq_next.mpr ⟨rfl, rfl⟩⟩

/-- Settles O9: each turn's step and its event come to the same. -/
theorem otherTurnsRunTheirEvents : Obligations.OtherTurnsRunTheirEvents := by
  unfold Obligations.OtherTurnsRunTheirEvents
  intro s σ
  refine ⟨fun hs harmed => ?_, fun hs harmed => ?_, fun k hs => ?_, fun k hs => ?_, fun hs => step_reset hs⟩
  · rw [step_sc hs, if_pos harmed]
    exact (exec_tick_eq_next (s := s.under σ).mpr ⟨harmed, rfl⟩).symm
  · rw [step_sc hs, harmed]
    rfl
  · exact (step_keydn hs).trans (exec_keyEvent (.inl ⟨rfl, rfl⟩) (noteOf_noteField k) _).symm
  · exact (step_keyup hs).trans (exec_keyEvent (.inr ⟨rfl, rfl⟩) (noteOf_noteField k) _).symm

/-! ### One tick -/

/-- Settles O33: a tick goes on exactly where the clock is armed, and its output is the sum's top byte. -/
theorem tickAdvancesAndEmits : Obligations.TickAdvancesAndEmits := by
  unfold Obligations.TickAdvancesAndEmits
  refine ⟨decode_encode (i := .tick) rfl, fun s => ⟨fun harmed => ?_, fun hunarmed t h => ?_, fun _ => ?_⟩⟩
  · exact exec_tick_eq_next.mpr ⟨harmed, rfl⟩
  · obtain ⟨harmed, -⟩ := exec_tick_eq_next.mp h
    simp [hunarmed] at harmed
  · exact takeTick_audio s

/-- A tick of the unarmed clock is refused by name (log 10). -/
theorem exec_tick_of_unarmed {s : State} (h : s.armed = false) : exec .tick s = .refused .tickNotArmed := by
  simp [exec, execTick, h]

/-- Settles O34: the unarmed branch of the tick. -/
theorem tickBeforeArmingIsRefused : Obligations.TickBeforeArmingIsRefused := by
  unfold Obligations.TickBeforeArmingIsRefused
  exact fun s h => exec_tick_of_unarmed h

end Sys2Proof.Machine

end

section
/-! PROOFS of the family 45_foreground_sequencer.md: the boot program under every schedule, the two composites of the
foreground, and the steps of the foreground and the environment. The rules each proof cites stand before it. -/

namespace Sys2Proof.Machine

/-! ### A program without end of FG's own commands -/

/-- Executing a word of such a program leaves such a program: the word's other atomic steps take its place
(30_encoding.md R51). -/
theorem ownCommands_exec {s t : State} {w : CommandWord} {ws : List CommandWord} {i : Instr} (hs : OwnCommands s)
    (hr : s.rest = w :: ws) (hd : decode w = .ok i) (h : exec i (s.withRest ws) = .next t) : OwnCommands t := by
  obtain ⟨j, hj, hagent⟩ := hs.2 w (by simp [hr])
  obtain rfl : i = j := Except.ok.inj (hd.symm.trans hj)
  obtain ⟨first, more, hi, hexec⟩ := exec_foreground (wf_of_decode hd) hagent
  obtain rfl := Host.Outcome.next.inj (h.symm.trans (hexec _))
  obtain ⟨hrest, -, -, -, -, hprog, hloop⟩ := effect_else first (pushSteps more (s.withRest ws))
  have hmore : ∀ j ∈ more, j.kind = .atomic ∧ j.wf = true := fun j hj =>
    (Laws.expansion i (wf_of_decode hd)).1 j (by rw [hi]; exact List.mem_cons_of_mem _ hj)
  refine ownCommands_of_rest hs hprog hloop hrest hmore ?_
  rw [hr]
  exact fun x hx => List.mem_append_right _ (List.mem_cons_of_mem w hx)

/-- Reset puts the steps executed in front of the words still to come, and they are commands of FG (log 12). -/
theorem ownCommands_applyReset {s : State} (hs : OwnCommands s) : OwnCommands (applyReset s) := by
  refine ownCommands_of_rest hs rfl rfl rfl (fun j hj => ?_) (List.subset_append_right _ _)
  rw [← streamSteps_append] at hj
  exact atomic_of_mem_streamSteps (List.mem_of_mem_take hj)

/-- Every step of every agent leaves such a program. -/
theorem ownCommands_step {s t : State} (hs : OwnCommands s) (h : step s = .next t) : OwnCommands t := by
  obtain ⟨-, w, ws, i, hr, hd, he⟩ | ⟨σ, -, ⟨-, rfl⟩ | ⟨-, rfl⟩⟩ | ⟨σ, k, v, -, rfl⟩ | ⟨σ, -, rfl⟩ := step_cases h
  · exact ownCommands_exec (s := (refill s).under s.sched.tail) (ownCommands_refill hs) hr hd he
  · exact hs
  · exact hs
  · exact hs
  · exact ownCommands_applyReset (s := s.under σ) hs

/-- A run does not stop where every step from a state of the kind goes on to one of the kind. -/
theorem exists_runUnder_of_kept {P : State → Prop} (hstep : ∀ s, P s → ∃ t, step s = .next t ∧ P t)
    (hsched : ∀ s σ, P s → P (s.under σ)) {s : State} (hs : P s) (σ : List Turn) : ∃ t, runUnder σ s = .next t := by
  induction σ generalizing s with
  | nil => exact ⟨_, runUnder_nil s⟩
  | cons u σ ih =>
    obtain ⟨v, hv, hP⟩ := hstep _ (hsched s (u :: σ) hs)
    obtain ⟨t, ht⟩ := ih hP
    exact ⟨t, (runUnder_cons hv).trans ht⟩

/-- Settles O57: FG's turn finds a command of FG, the other turns ask for nothing of the program, and each leaves a
program of the same kind. -/
theorem bootProgramNeverStops : Obligations.BootProgramNeverStops := by
  unfold Obligations.BootProgramNeverStops
  have hstep : ∀ s, OwnCommands s → ∃ t, step s = .next t ∧ OwnCommands t := fun s hs =>
    (exists_step_of_ownCommands hs).imp fun _ ht => ⟨ht, ownCommands_step hs ht⟩
  exact ⟨hstep, ownCommands_reset, exists_runUnder_of_kept hstep (fun _ _ hs => hs) ownCommands_reset⟩

/-! ### The display while the clock is armed -/

/-- The clock is armed from the loop on, and there the startup sequence lies behind (45_foreground_sequencer.md
R135). -/
theorem displayOn_of_boot {s : State} (hs : AtBootStep s) (harmed : s.armed = true) : DisplayOn s := by
  have h19 : 19 ≤ s.fgpc := (armed_iff_of_boot hs).mp harmed
  exact ⟨hs.powered (by omega), hs.resetReleased (by omega)⟩

/-- Settles O58: the conditions of a boot step hold at reset and every step keeps them, so every reachable state meets
them. -/
theorem bootKeepsDisplayOnWhileArmed : Obligations.BootKeepsDisplayOnWhileArmed := by
  unfold Obligations.BootKeepsDisplayOnWhileArmed
  have hstep : ∀ s t, AtBootStep s → step s = .next t → AtBootStep t := fun _ _ => atBootStep_step
  exact ⟨hstep, atBootStep_reset, fun _ => displayOn_of_boot, fun _ ht =>
    displayOn_of_boot (reachable_of_kept atBootStep_reset hstep (fun _ σ => atBootStep_under σ) ht)⟩

/-! ### STARTUP -/

/-- The display's logic reset asserted by one strobe, released by another, and its power enabled by a third
(45_foreground_sequencer.md R135). -/
def started (s : State) : State :=
  strobe Config.muxDen Config.denOn 6 (strobe Config.muxDrst (!Config.drstAssert) 6
    (strobe Config.muxDrst Config.drstAssert 6 s))

theorem foldl_effect_startup (s : State) : startupSteps.foldl (fun u i => effect i u) s = started s := rfl

/-- Line 3 carries what the last strobe leaves and line 4 what the one before it does; no strobe addresses lines 5 to
7. -/
theorem started_line (s : State) (k : Fin 5) : (started s).line k =
    if k = 0 then Config.denOn else if k = 1 then !Config.drstAssert else s.line k := by
  have hden : Config.muxDen.toNat = 3 := rfl
  have hdrst : Config.muxDrst.toNat = 4 := rfl
  unfold started
  split
  next hk => exact strobe_line_after _ _ (by simp [hk, hden]) (by decide) le_rfl
  next hk =>
    rw [strobe_line_other _ _ (by omega)]
    split
    next hk => exact strobe_line_after _ _ (by simp [hk, hdrst]) (by decide) le_rfl
    next hk => rw [strobe_line_other _ _ (by omega), strobe_line_other _ _ (by omega)]

/-- A well-formed command of FG with no turn between its steps, followed up to any of them: the effects of the steps so
far, in order (30_encoding.md R51). -/
theorem exec_run_take {i : Instr} (hw : i.wf = true) (ha : i.agent = .fg) {s t : State} (h : exec i s = .next t)
    {n : Nat} (hn : n + 1 ≤ (atomics i).length) :
    ∃ u, runUnder (fgTurns n) t = .next u ∧
      AlikeForFg (((atomics i).take (n + 1)).foldl (fun u i => effect i u) s) u := by
  obtain ⟨u, hu, halike⟩ := runUnder_commands (is := [i]) (s := atCommand i s) (ws := s.rest) (by simp [hw, ha])
    (onlyTicks_fgTurns (n + 1)) (by rw [count_fgTurns]; simpa using hn) rfl
  rw [count_fgTurns, List.flatMap_singleton] at halike
  exact ⟨u, (runUnder_command (s := atCommand i s) hw rfl h).symm.trans hu,
    (alike_foldl (alike_withRest s _) _).trans halike⟩

/-- Settles O42: the first six steps are a strobe that asserts the display's reset, and the eighteen are the three
strobes, which write nothing but the bus. -/
theorem startupSequenceTurnsTheDisplayOn : Obligations.StartupSequenceTurnsTheDisplayOn := by
  unfold Obligations.StartupSequenceTurnsTheDisplayOn
  intro s
  obtain ⟨t, u, ht, hu, halike, hwent, hosc⟩ := exec_composite_run (i := .startup) rfl rfl s
  obtain ⟨m, hm, hstrobe⟩ := exec_run_take (i := .startup) rfl rfl ht (n := 5) (by decide)
  replace hstrobe : AlikeForFg (strobe Config.muxDrst Config.drstAssert 6 s) m := hstrobe
  replace halike : AlikeForFg (started s) u := foldl_effect_startup s ▸ halike
  have hline := fun k => (halike.line k).trans (started_line s k)
  refine ⟨t, m, u, ht, hm, hstrobe.en, (hstrobe.line 1).trans (strobe_line_after _ s rfl (by decide) le_rfl), hu,
    halike.en, halike.addr, halike.data, halike.settle, hline 0, hline 1, fun k hk => ?_, ⟨halike.km, halike.kp⟩,
    ⟨halike.css, halike.note⟩, hosc, ⟨halike.armed, halike.led, halike.key⟩, hwent⟩
  rw [hline, if_neg (by omega), if_neg (by omega)]

/-! ### FGITER -/

/-- The state after `FGITER`: time has passed, the keys are scanned and the LED is inverted
(45_foreground_sequencer.md R137). -/
def iterated (s : State) : State :=
  effect .ledt (resolution (scannedMatrix (elapse Config.tFg s)))

theorem foldl_effect_fgiter (s : State) : fgiterSteps.foldl (fun u i => effect i u) s = iterated s := by
  rw [fgiterSteps, List.foldl_cons, List.foldl_append, foldl_effect_scan]
  rfl

/-- A delay of two microseconds or more gives a line that is driven the data level and leaves the others
(40_mux_controller.md R69). -/
theorem elapse_line {n : Nat} (hn : 2 ≤ n) (s : State) (k : Fin 5) : (elapse n s).line k =
    if s.en = true ∧ s.addr.toNat = 3 + k.val then s.data else s.line k := by
  split
  next hdriven => exact elapse_line_driven hn (drivenLine_eq_some.mpr hdriven)
  next hnot => exact elapse_line_other fun hdriven => hnot (drivenLine_eq_some.mp hdriven)

/-- Settles O43: the wait settles a driven line, the scan shows and resolves the keys, and the LED's step is the last. -/
theorem foregroundIterationScansAndBlinks : Obligations.ForegroundIterationScansAndBlinks := by
  unfold Obligations.ForegroundIterationScansAndBlinks
  intro s
  obtain ⟨t, u, ht, hu, halike, hwent, hosc⟩ := exec_composite_run (i := .fgiter) rfl rfl s
  replace halike : AlikeForFg (iterated s) u := foldl_effect_fgiter s ▸ halike
  obtain ⟨addr, en, settle, data, outl, cells, sound, harmed, hled, hkey⟩ :=
    scanned_resolution (elapse Config.tFg s)
  have hsound : Resolved s.held (iterated s) := sound
  refine ⟨t, u, ht, hu, halike.addr.trans addr, halike.en.trans en, ?_, halike.data.trans data, fun k => ?_,
    fun i => ?_, hsound.of_alike halike, halike.led.trans (congrArg not hled), halike.armed.trans harmed,
    halike.key.trans hkey, hosc, hwent⟩
  · rw [halike.settle]
    exact settle
  · rw [← elapse_line (n := Config.tFg) (by decide)]
    exact congrArg (fun outl : BitVec 5 => outl.getLsbD k.val) (halike.outl.trans outl)
  · rw [halike.km]
    exact cells i

/-! ### The end of a finite stream, the LED and the keys -/

/-- Settles O10: with no word left and no loop body, FG's turn, listed or not, finds none. -/
theorem finishedStreamEnds : Obligations.FinishedStreamEnds := by
  unfold Obligations.FinishedStreamEnds
  intro s σ hr hl hs
  unfold step fetch
  obtain hs | hs := hs <;> rw [hs]
  · simp only [fetchWord_ended hr hl]
  · simp only [fetchWord_ended (s := s.under σ) hr hl]

/-- Settles O41: the step is its one write. -/
theorem ledtTogglesTheLed : Obligations.LedtTogglesTheLed := by
  unfold Obligations.LedtTogglesTheLed
  exact ⟨decode_encode (i := .ledt) rfl, fun _ => exec_of_effect rfl rfl rfl⟩

/-- Writing a bit that is so already changes nothing. -/
theorem writeBit_of_getLsbD {n : Nat} {v : BitVec n} {i : Nat} {b : Bool} (h : v.getLsbD i = b) :
    writeBit v i b = v := by
  refine BitVec.eq_of_getLsbD_eq fun j _ => ?_
  rw [getLsbD_writeBit]
  split
  next hji => rw [hji.1, h]
  next => rfl

/-- Settles O44: a key event writes the one bit of its key. -/
theorem keyEventsMoveOneKey : Obligations.KeyEventsMoveOneKey := by
  unfold Obligations.KeyEventsMoveOneKey
  intro i m v s hi
  have hexec : exec (if v then .keydn i else .keyup i) s = .next (setKey m v s) :=
    exec_keyEvent (by cases v <;> simp) (noteOf_eq_some.mpr hi) s
  refine ⟨_, hexec, rfl, fun j => ?_, fun hm => ?_⟩
  · simp only [State.held, setKey_key, getLsbD_writeBit, m.isLt, and_true, Fin.val_inj]
  · rw [setKey, writeBit_of_getLsbD hm]

end Sys2Proof.Machine

end

section
/-! PROOFS of the family 70_reset_and_hazards.md: what the reset event leaves and what it restarts, and the state right
after reset. The rules each proof cites stand before it. -/

namespace Sys2Proof.Machine

/-! ### The program after the reset event -/

/-- The steps FG has executed are put back as words of FG's own, so that the other words keep their order and none is
added (log 12). -/
theorem rewound_filter_events (s : State) :
    (rewound s).filter (fun w => !isForeground w) = s.rest.filter (fun w => !isForeground w) := by
  have hexecuted : (((streamSteps s.prog ++ streamSteps s.loop).take s.fgpc).map encode).filter
      (fun w => !isForeground w) = [] := by
    refine List.filter_eq_nil_iff.mpr fun w hw => ?_
    obtain ⟨j, hj, rfl⟩ := List.mem_map.mp hw
    rw [← streamSteps_append] at hj
    obtain ⟨hatomic, -⟩ := atomic_of_mem_streamSteps (List.mem_of_mem_take hj)
    simp [isForeground_encode, agent_of_atomic hatomic]
  rw [rewound, List.filter_append, hexecuted, List.nil_append]

/-- FG has its whole straight part before it again, alone or with the pass of the loop body it was in (10_state.md
R25). -/
theorem streamSteps_rewound {s : State} (h : PositionInStep s) :
    streamSteps (rewound s) = streamSteps s.prog ∨
      streamSteps (rewound s) = streamSteps s.prog ++ streamSteps s.loop := by
  obtain ⟨body, hbody, -, hsteps⟩ := positionInStep_applyReset h
  replace hsteps : streamSteps (rewound s) = streamSteps s.prog ++ body := hsteps
  obtain rfl | rfl := hbody
  · exact .inl (hsteps.trans (List.append_nil _))
  · exact .inr hsteps

/-- Settles O45: the values are those that `applyReset` writes, and the program is the one FG was in, rewound. -/
theorem resetEventRestartsTheCore : Obligations.ResetEventRestartsTheCore := by
  unfold Obligations.ResetEventRestartsTheCore
  intro s
  exact ⟨applyReset s, rfl, applyReset_acc s, applyReset_css s, applyReset_armed s, applyReset_note s,
    applyReset_settle s, applyReset_key s, applyReset_fgpc s, applyReset_prog s, applyReset_loop s,
    applyReset_sched s, rewound_filter_events s, streamSteps_rewound⟩

/-! ### The state right after reset -/

/-- Settles O46: each value is the one that reset writes, and the boot program begins with the steps of `STARTUP`. -/
theorem resetStateIsTheSpecs : Obligations.ResetStateIsTheSpecs := by
  unfold Obligations.ResetStateIsTheSpecs
  have hfirst : (streamSteps State.reset.rest).head? = (atomics .startup).head? :=
    calc (streamSteps bootStraight).head?
      _ = (startupSteps ++ [Instr.arm]).head? := by rw [streamSteps_bootStraight]
      _ = startupSteps.head? := rfl
  exact ⟨rfl, rfl, rfl, rfl, rfl, rfl, rfl, rfl, rfl, hfirst⟩

/-- Settles O56: no note sounds at step size 0, the settle time starts again, and FG is at a step of the boot
program. -/
theorem resetMeetsTheConditions : Obligations.ResetMeetsTheConditions := by
  unfold Obligations.ResetMeetsTheConditions
  have hnote : NoteInStep State.reset := ⟨fun _ => rfl, nofun⟩
  exact ⟨hnote, lineSettled_of_settle_zero rfl, atBootStep_reset.position⟩

end Sys2Proof.Machine

end
